-- ==== Sys2Proof/Word.lean ====
section
/-! DEFINITION. The word of LC3T-CORE: every register, memory cell, address and instruction is an unsigned 16-bit
number (00_scope.md R8, R10); bit 0 is the least significant (R9). -/

namespace Sys2Proof

/-- A register value, memory value, address or instruction word (R10). -/
abbrev Word := BitVec 16

/-- One byte: of the image stream (20_memory.md R62) or of keyboard input (R56). -/
abbrev Byte := BitVec 8

end Sys2Proof
end

