-- ==== Sys2Proof/Syntax.lean ====
section
/-! DEFINITION. The instructions: one constructor per row of spec/opcode_table.json, with the operands that
30_encoding.md R88 gives each. -/

namespace Sys2Proof

/-- A 3-bit register field: it selects R0..R7 and can select neither PC nor COND (30_encoding.md R83). -/
abbrev RegField := BitVec 3

/-- The closed variant of R88. Immediates are the 16-bit values `sext_5(imm5)` and `sext_9(PCoffset9)` (R84). -/
inductive Instr where
  /-- ADD, register form (41_operate.md R134). -/
  | addReg (dr sr1 sr2 : RegField)
  /-- ADD, immediate form (R135). -/
  | addImm (dr sr1 : RegField) (imm : Word)
  /-- AND, register form (R136). -/
  | andReg (dr sr1 sr2 : RegField)
  /-- AND, immediate form (R137). -/
  | andImm (dr sr1 : RegField) (imm : Word)
  /-- LD, PC-relative (42_load.md R160). -/
  | ld (dr : RegField) (off : Word)
  /-- Opcode 0000 (43_unimplemented.md R181, as are all the constructors below). -/
  | unimpl0000
  /-- Opcode 0011. -/
  | unimpl0011
  /-- Opcode 0100. -/
  | unimpl0100
  /-- Opcode 0110. -/
  | unimpl0110
  /-- Opcode 0111. -/
  | unimpl0111
  /-- Opcode 1000. -/
  | unimpl1000
  /-- Opcode 1001. -/
  | unimpl1001
  /-- Opcode 1010. -/
  | unimpl1010
  /-- Opcode 1011. -/
  | unimpl1011
  /-- Opcode 1100. -/
  | unimpl1100
  /-- Opcode 1101. -/
  | unimpl1101
  /-- Opcode 1110. -/
  | unimpl1110
  /-- Opcode 1111. -/
  | unimpl1111
  deriving DecidableEq, Repr

end Sys2Proof
end

