-- ==== Sys2Proof/WellFormed.lean ====
section
/-! DEFINITION. Which instruction terms an encoding exists for: the immediates lie in the encoded ranges of
30_encoding.md R84. Register fields need no check, their type is the 3-bit field (R83). -/

namespace Sys2Proof

/-- R84: imm5 encodes -16..+15. -/
def imm5InRange (imm : Word) : Bool := decide (-16 ≤ imm.toInt ∧ imm.toInt ≤ 15)

/-- R84: PCoffset9 encodes -256..+255. -/
def off9InRange (off : Word) : Bool := decide (-256 ≤ off.toInt ∧ off.toInt ≤ 255)

/-- The instruction is one the decoder can give. -/
def Instr.wf : Instr → Bool
  | .addReg _ _ _ => true
  | .addImm _ _ imm => imm5InRange imm
  | .andReg _ _ _ => true
  | .andImm _ _ imm => imm5InRange imm
  | .ld _ off => off9InRange off
  | .unimpl0000 => true
  | .unimpl0011 => true
  | .unimpl0100 => true
  | .unimpl0110 => true
  | .unimpl0111 => true
  | .unimpl1000 => true
  | .unimpl1001 => true
  | .unimpl1010 => true
  | .unimpl1011 => true
  | .unimpl1100 => true
  | .unimpl1101 => true
  | .unimpl1110 => true
  | .unimpl1111 => true

end Sys2Proof
end

