-- ==== Sys2Proof/Decode.lean ====
section
/-! DEFINITION. The instruction_decoder (30_encoding.md): sign extension, the decoder, the opcode table's masks and
patterns, and the encoder. Field positions are positions in the 16-bit word (00_scope.md R9). -/

namespace Sys2Proof

/-- `extend(value, bitWidth)` of 00_scope.md R14, written as its pseudocode; meant for 1 ≤ n ≤ 16. Bits of `v` at
positions n and above are not read. -/
def sext (n : Nat) (v : Word) : Word :=
  let low := v &&& BitVec.ofNat 16 (2 ^ n - 1)
  if low.getLsbD (n - 1) then (0xFFFF#16 <<< n) ||| low else low

/-- `zext_16` of a byte (00_scope.md R13). -/
def zextByte (b : Byte) : Word := b.setWidth 16

/-- `instr[15:12]` (R81). -/
def opcodeOf (w : Word) : BitVec 4 := w.extractLsb' 12 4

/-- DR = `instr[11:9]` (R83). -/
def drOf (w : Word) : RegField := w.extractLsb' 9 3

/-- SR1 = `instr[8:6]` (R83). -/
def sr1Of (w : Word) : RegField := w.extractLsb' 6 3

/-- SR2 = `instr[2:0]` (R83). -/
def sr2Of (w : Word) : RegField := w.extractLsb' 0 3

/-- The mode bit `instr[5]`: true selects the immediate form (R85). -/
def modeOf (w : Word) : Bool := w.getLsbD 5

/-- `sext_5(instr[4:0])` (R84). -/
def imm5Of (w : Word) : Word := sext 5 w

/-- `sext_9(instr[8:0])` (R84). -/
def off9Of (w : Word) : Word := sext 9 w

/-- The decode function of R88, total on all 65536 words. In the register forms bits 4..3 are not read (R86,
92_eei_decisions.md D6, notes/assumptions/6.md); in the halting opcodes no payload bit is read. The last arm is opcode
1111, the only value the others leave. -/
def decode (w : Word) : Instr :=
  match (opcodeOf w).toNat with
  | 0 => .unimpl0000
  | 1 => if modeOf w then .addImm (drOf w) (sr1Of w) (imm5Of w) else .addReg (drOf w) (sr1Of w) (sr2Of w)
  | 2 => .ld (drOf w) (off9Of w)
  | 3 => .unimpl0011
  | 4 => .unimpl0100
  | 5 => if modeOf w then .andImm (drOf w) (sr1Of w) (imm5Of w) else .andReg (drOf w) (sr1Of w) (sr2Of w)
  | 6 => .unimpl0110
  | 7 => .unimpl0111
  | 8 => .unimpl1000
  | 9 => .unimpl1001
  | 10 => .unimpl1010
  | 11 => .unimpl1011
  | 12 => .unimpl1100
  | 13 => .unimpl1101
  | 14 => .unimpl1110
  | _ => .unimpl1111

/-- Why a string of bits is no instruction. Every 16-bit word is one (R90), so length is the only ground. -/
inductive DecodeError where
  /-- More bits than the one 16-bit word every instruction is (R80). Raised by `decodeBits`; safe. -/
  | longerThanOneWord
  /-- A value that does not fit the bits it is said to have. Raised by `decodeBits`; safe. -/
  | valueTooWide
  deriving DecidableEq, Repr

/-- The decoder on an instruction given as a number of bits and their value, bit 0 least significant; bits from
`nbits` up to 16 are zero. -/
def decodeBits (nbits w : Nat) : Except DecodeError Instr :=
  if 16 < nbits then .error .longerThanOneWord
  else if 2 ^ nbits ≤ w then .error .valueTooWide
  else .ok (decode (BitVec.ofNat 16 w))

/-- The instruction the decoder reads from the bits `w` of an opcode-table row. -/
def decodeTableWord (nbits w : Nat) : Option Instr := (decodeBits nbits w).toOption

/-- One row of spec/opcode_table.json: a word belongs to it when its bits under `mask` equal `pattern`. -/
structure OpcodeRow where
  mnemonic : String
  form : String
  mask : Word
  pattern : Word
  deriving DecidableEq, Repr

/-- The word belongs to the row. -/
def OpcodeRow.covers (r : OpcodeRow) (w : Word) : Bool := w &&& r.mask == r.pattern

/-- The rows of ADD, LD and AND (30_encoding.md R82). -/
def executingRows : List OpcodeRow := [
  ⟨"ADD", "register", 0xF020#16, 0x1000#16⟩,
  ⟨"ADD", "immediate", 0xF020#16, 0x1020#16⟩,
  ⟨"LD", "pc-relative", 0xF000#16, 0x2000#16⟩,
  ⟨"AND", "register", 0xF020#16, 0x5000#16⟩,
  ⟨"AND", "immediate", 0xF020#16, 0x5020#16⟩
]

/-- The thirteen halting rows (43_unimplemented.md R181). -/
def haltingRows : List OpcodeRow := [
  ⟨"UNIMPL_0000", "halt", 0xF000#16, 0x0000#16⟩,
  ⟨"UNIMPL_0011", "halt", 0xF000#16, 0x3000#16⟩,
  ⟨"UNIMPL_0100", "halt", 0xF000#16, 0x4000#16⟩,
  ⟨"UNIMPL_0110", "halt", 0xF000#16, 0x6000#16⟩,
  ⟨"UNIMPL_0111", "halt", 0xF000#16, 0x7000#16⟩,
  ⟨"UNIMPL_1000", "halt", 0xF000#16, 0x8000#16⟩,
  ⟨"UNIMPL_1001", "halt", 0xF000#16, 0x9000#16⟩,
  ⟨"UNIMPL_1010", "halt", 0xF000#16, 0xA000#16⟩,
  ⟨"UNIMPL_1011", "halt", 0xF000#16, 0xB000#16⟩,
  ⟨"UNIMPL_1100", "halt", 0xF000#16, 0xC000#16⟩,
  ⟨"UNIMPL_1101", "halt", 0xF000#16, 0xD000#16⟩,
  ⟨"UNIMPL_1110", "halt", 0xF000#16, 0xE000#16⟩,
  ⟨"UNIMPL_1111", "halt", 0xF000#16, 0xF000#16⟩
]

/-- The opcode table, row for row. -/
def opcodeTable : List OpcodeRow := executingRows ++ haltingRows

/-- The table's row an instruction stands for. -/
def Instr.row : Instr → OpcodeRow
  | .addReg _ _ _ => ⟨"ADD", "register", 0xF020#16, 0x1000#16⟩
  | .addImm _ _ _ => ⟨"ADD", "immediate", 0xF020#16, 0x1020#16⟩
  | .ld _ _ => ⟨"LD", "pc-relative", 0xF000#16, 0x2000#16⟩
  | .andReg _ _ _ => ⟨"AND", "register", 0xF020#16, 0x5000#16⟩
  | .andImm _ _ _ => ⟨"AND", "immediate", 0xF020#16, 0x5020#16⟩
  | .unimpl0000 => ⟨"UNIMPL_0000", "halt", 0xF000#16, 0x0000#16⟩
  | .unimpl0011 => ⟨"UNIMPL_0011", "halt", 0xF000#16, 0x3000#16⟩
  | .unimpl0100 => ⟨"UNIMPL_0100", "halt", 0xF000#16, 0x4000#16⟩
  | .unimpl0110 => ⟨"UNIMPL_0110", "halt", 0xF000#16, 0x6000#16⟩
  | .unimpl0111 => ⟨"UNIMPL_0111", "halt", 0xF000#16, 0x7000#16⟩
  | .unimpl1000 => ⟨"UNIMPL_1000", "halt", 0xF000#16, 0x8000#16⟩
  | .unimpl1001 => ⟨"UNIMPL_1001", "halt", 0xF000#16, 0x9000#16⟩
  | .unimpl1010 => ⟨"UNIMPL_1010", "halt", 0xF000#16, 0xA000#16⟩
  | .unimpl1011 => ⟨"UNIMPL_1011", "halt", 0xF000#16, 0xB000#16⟩
  | .unimpl1100 => ⟨"UNIMPL_1100", "halt", 0xF000#16, 0xC000#16⟩
  | .unimpl1101 => ⟨"UNIMPL_1101", "halt", 0xF000#16, 0xD000#16⟩
  | .unimpl1110 => ⟨"UNIMPL_1110", "halt", 0xF000#16, 0xE000#16⟩
  | .unimpl1111 => ⟨"UNIMPL_1111", "halt", 0xF000#16, 0xF000#16⟩

/-- Format OPR of R82: opcode, DR, SR1, mode 0, unused bits 4..3, SR2. -/
def packOPR (op : BitVec 4) (dr sr1 : RegField) (unused : BitVec 2) (sr2 : RegField) : Word :=
  op ++ dr ++ sr1 ++ 0#1 ++ unused ++ sr2

/-- Format OPI of R82: opcode, DR, SR1, mode 1, imm5. -/
def packOPI (op : BitVec 4) (dr sr1 : RegField) (imm5 : BitVec 5) : Word :=
  op ++ dr ++ sr1 ++ 1#1 ++ imm5

/-- Format PCR of R82: opcode 0010, DR, PCoffset9. -/
def packPCR (dr : RegField) (off9 : BitVec 9) : Word := 0b0010#4 ++ dr ++ off9

/-- Format UNI of R82: opcode, payload. -/
def packUNI (op : BitVec 4) (payload : BitVec 12) : Word := op ++ payload

/-- The word of a well-formed instruction. Bits the decoder does not read are written as zero (DESIGN CHOICE, safe,
notes/assumptions/6.md). -/
def encode : Instr → Word
  | .addReg dr sr1 sr2 => packOPR 0b0001#4 dr sr1 0#2 sr2
  | .addImm dr sr1 imm => packOPI 0b0001#4 dr sr1 (imm.setWidth 5)
  | .andReg dr sr1 sr2 => packOPR 0b0101#4 dr sr1 0#2 sr2
  | .andImm dr sr1 imm => packOPI 0b0101#4 dr sr1 (imm.setWidth 5)
  | .ld dr off => packPCR dr (off.setWidth 9)
  | .unimpl0000 => packUNI 0b0000#4 0#12
  | .unimpl0011 => packUNI 0b0011#4 0#12
  | .unimpl0100 => packUNI 0b0100#4 0#12
  | .unimpl0110 => packUNI 0b0110#4 0#12
  | .unimpl0111 => packUNI 0b0111#4 0#12
  | .unimpl1000 => packUNI 0b1000#4 0#12
  | .unimpl1001 => packUNI 0b1001#4 0#12
  | .unimpl1010 => packUNI 0b1010#4 0#12
  | .unimpl1011 => packUNI 0b1011#4 0#12
  | .unimpl1100 => packUNI 0b1100#4 0#12
  | .unimpl1101 => packUNI 0b1101#4 0#12
  | .unimpl1110 => packUNI 0b1110#4 0#12
  | .unimpl1111 => packUNI 0b1111#4 0#12

end Sys2Proof
end

