-- ==== Sys2Proof/Config.lean ====
section
/-! DEFINITION. The implementation parameters of 00_scope.md R8: the five that no source fixes are arguments with the
spec's defaults (Config), the others are constants; and the one free value, the keyboard's answers. -/

namespace Sys2Proof

/-- The parameters R8 asks a model to take as arguments. PRESUMED defaults (unsafe where a claim leans on one): the
spec takes them from general knowledge of the LC-3 (92_eei_decisions.md D1, D2, D3; notes/assumptions/2.md, 3.md). -/
structure Config where
  /-- KBSR_ADDR (R53, D1). -/
  kbsrAddr : Word := 0xFE00#16
  /-- KBDR_ADDR (R53, D2). -/
  kbdrAddr : Word := 0xFE02#16
  /-- COND_POS (10_state.md R26, D3). -/
  condPos : Word := 0x0001#16
  /-- COND_ZERO (R26, D3). -/
  condZero : Word := 0x0002#16
  /-- COND_NEG (R26, D3). -/
  condNeg : Word := 0x0004#16
  deriving DecidableEq, Repr

namespace Config

/-- The spec's default parameters. -/
def spec : Config := {}

/-- START_PC (R8; 70_reset_and_hazards.md R231). -/
def startPc : Word := 0x3000#16

/-- KBSR_READY: what a KBSR read stores when input is pending (R8, R55). -/
def kbsrReady : Word := 0x8000#16

/-- KBSR_EMPTY: what a KBSR read stores when no input is pending (R8, R55). -/
def kbsrEmpty : Word := 0x0000#16

/-- COND_RESET: COND before any flag update, no flag active (R8; 90_conflicts.md C1). -/
def condReset : Word := 0x0000#16

/-- The constraints the decisions put on the parameters: two distinct keyboard addresses (D1), and three distinct flag
encodings, all different from COND_RESET (D3). -/
abbrev Valid (c : Config) : Prop :=
  c.kbsrAddr ≠ c.kbdrAddr ∧
  c.condPos ≠ c.condZero ∧ c.condPos ≠ c.condNeg ∧ c.condZero ≠ c.condNeg ∧
  c.condPos ≠ condReset ∧ c.condZero ≠ condReset ∧ c.condNeg ≠ condReset

end Config

/-- One answer of the keyboard to one KBSR read: the draw of 20_memory.md R57. -/
inductive KbDraw where
  /-- `pending()` is false. -/
  | noInput
  /-- `pending()` is true and `nextByte()` returns this byte. -/
  | input (b : Byte)
  deriving DecidableEq, Repr, Inhabited

/-- FREE VALUE: the answer to the n-th poll of a run where the state does not list it (R57, D16). Nothing constrains
it, so a claim about it holds for every console and every input timing. DESIGN CHOICE, safe (notes/assumptions/10.md). -/
opaque Config.keyboardDraw : Nat → KbDraw

end Sys2Proof
end

