-- ==== Sys2Proof/Machine/State.lean ====
section
/-! DEFINITION. The state of LC3T-CORE (10_state.md, 20_memory.md) and its value at reset. Plain data. -/

namespace Sys2Proof.Machine

/-- The sequencer's run state (10_state.md R30). -/
inductive RunState where
  | running
  | halted
  deriving DecidableEq, Repr

/-- Why the sequencer halted (R31; 43_unimplemented.md R182: the only reason this hardware produces;
notes/assumptions/24.md). -/
inductive HaltReason where
  | unimplementedOpcode
  deriving DecidableEq, Repr

/-- The defensive fault indication (R32; 60_exceptions.md R200, R203). -/
inductive FaultIndication where
  /-- A register-file access with this index, 10 or more (R22). -/
  | registerIndexOutOfRange (index : Nat)
  deriving DecidableEq, Repr

/-- Why `step` has no next state. -/
inductive Fault where
  /-- The run has HALTED: the sequencer has no step (40_cycle.md R107). Not a fault of the spec's, which calls the
  halt a normal end; Outcome has no other way to say that no step exists. Raised by `step` only, in a halted state.
  DESIGN CHOICE, safe (notes/assumptions/11.md). -/
  | sequencerHalted
  /-- A register index of 10 or more was presented in an earlier step: the sequencer has no further step
  (60_exceptions.md R203, D14). Raised by `step` only, in a state that records the indication. Safe, and unreachable
  from any instruction (notes/assumptions/12.md). -/
  | registerIndexOutOfRange (index : Nat)
  deriving DecidableEq, Repr

/-- Why the model gives an instruction no meaning. -/
inductive Refusal where
  /-- An instruction whose meaning is not written. Raised by no arm: every instruction has its meaning. Safe. -/
  | notModelled (mnemonic : String)
  deriving DecidableEq, Repr

/-- The words of memory_16bit (20_memory.md R50), held as a sorted list of byte cells: word address `a` is the two
cells `2a` (bits 15..8) and `2a + 1` (bits 7..0). A cell not listed reads as zero (10_state.md R39). DESIGN CHOICE,
safe: no operation of the machine reaches a lone cell (notes/assumptions/1.md). -/
abbrev Memory := List Host.Cell

/-- The register_file: entries 0..7 are R0..R7, 8 is PC, 9 is COND (10_state.md R20). -/
abbrev RegFile := Vector Word 10

/-- Everything the spec gives the machine (10_state.md R20, R30 to R34), and the model's own `config`, `kbDraws` and
`kbPolls`. -/
structure State where
  /-- R0..R7, PC and COND. -/
  regs : RegFile
  /-- The memory array, the words KBSR and KBDR among it (R34). -/
  mem : Memory
  /-- RUNNING or HALTED (R30). -/
  run : RunState
  /-- The halt reason, none while RUNNING (R31). -/
  haltReason : Option HaltReason
  /-- The fault indication (R32). -/
  fault : Option FaultIndication
  /-- MODEL'S OWN: the parameters of 00_scope.md R8; no step writes them (notes/assumptions/13.md). -/
  config : Config
  /-- MODEL'S OWN: the keyboard's answers to the next KBSR reads, the first first (R33; 20_memory.md R57;
  notes/assumptions/10.md). -/
  kbDraws : List KbDraw
  /-- MODEL'S OWN: how many polls there have been; it selects the free value when `kbDraws` is empty
  (notes/assumptions/10.md). -/
  kbPolls : Nat
  deriving DecidableEq, Repr

/-- The machine at creation: every register and every memory word zero, RUNNING (70_reset_and_hazards.md R230;
10_state.md R38, R39), with these parameters and this keyboard. -/
def State.created (c : Config) (kb : List KbDraw) : State where
  regs := Vector.replicate 10 0#16
  mem := []
  run := .running
  haltReason := none
  fault := none
  config := c
  kbDraws := kb
  kbPolls := 0

/-- The machine at the first fetch with nothing loaded (10_state.md R40): PC has been set to 0x3000
(70_reset_and_hazards.md R231). The parameters are the spec's defaults (notes/assumptions/2.md, 3.md) and no keyboard
answer is fixed (notes/assumptions/10.md). -/
def State.reset : State :=
  let s := State.created Config.spec []
  { s with regs := s.regs.set 8 Config.startPc }

end Sys2Proof.Machine
end

