-- ==== Sys2Proof/Machine/Ops.lean ====
section
/-! DEFINITION. The named operations every meaning is written over: register-file access with the defensive index
check, memory and the memory_mapped_io_arbiter, the keyboard poll, fetch, and the machine's two terminal transitions
(the halt and the recorded fault). The hardware has no exception entry or return (60_exceptions.md R207). -/

namespace Sys2Proof.Machine

/-- What one step or meaning answers. -/
abbrev Result := Host.Outcome State Fault Refusal

/-! ### register_file -/

/-- PC is register file entry 8 (10_state.md R20). -/
def pcIndex : Nat := 8

/-- COND is register file entry 9 (R20). -/
def condIndex : Nat := 9

/-- `read(index)` with the index check (R21, R22). -/
def RegFile.read (i : Nat) (rf : RegFile) : Except FaultIndication Word :=
  if h : i < 10 then .ok rf[i] else .error (.registerIndexOutOfRange i)

/-- `write(index, value)` with the index check (R21, R22). -/
def RegFile.write (i : Nat) (v : Word) (rf : RegFile) : Except FaultIndication RegFile :=
  if h : i < 10 then .ok (rf.set i v) else .error (.registerIndexOutOfRange i)

/-- PC, for statements and the host; meanings go through `withReg`. -/
def State.pc (s : State) : Word := s.regs[8]

/-- COND, likewise. -/
def State.cond (s : State) : Word := s.regs[9]

/-- R0..R7 by 3-bit field, likewise (R23). -/
def State.gpr (s : State) (r : RegField) : Word := s.regs[r.toNat]'(Nat.lt_trans r.isLt (by decide))

/-- The state with PC replaced. -/
def State.setPc (v : Word) (s : State) : State := { s with regs := s.regs.set 8 v }

/-- The state with COND replaced. -/
def State.setCond (v : Word) (s : State) : State := { s with regs := s.regs.set 9 v }

/-- The state with one of R0..R7 replaced. -/
def State.setGpr (r : RegField) (v : Word) (s : State) : State :=
  { s with regs := s.regs.set r.toNat v (Nat.lt_trans r.isLt (by decide)) }

/-- Recording the defensive fault: nothing else changes, and `whenRunning` allows no further step (60_exceptions.md
R203, D14). -/
def raiseFault (f : FaultIndication) (s : State) : State := { s with fault := some f }

/-- The halting transition of the sequencer (40_cycle.md R106). -/
def halt (r : HaltReason) (s : State) : State := { s with run := .halted, haltReason := some r }

/-- Reading register file entry `i`: an index of 10 or more pre-empts the access and what follows it
(60_exceptions.md R203, R206). -/
def withReg (i : Nat) (s : State) (k : Word → Result) : Result :=
  match RegFile.read i s.regs with
  | .ok v => k v
  | .error f => .next (raiseFault f s)

/-- Writing register file entry `i`, with the same check. -/
def writingReg (i : Nat) (v : Word) (s : State) (k : State → Result) : Result :=
  match RegFile.write i v s.regs with
  | .ok rf => k { s with regs := rf }
  | .error f => .next (raiseFault f s)

/-! ### memory_16bit -/

/-- What a cell that is not listed reads as: memory is zero-initialized (10_state.md R39). -/
def Memory.unlisted : Byte := 0#8

/-- One byte cell. -/
def Memory.getByte (k : Nat) : Memory → Byte
  | [] => Memory.unlisted
  | (k', b) :: rest => if k' = k then b else Memory.getByte k rest

/-- The memory without cell `k`. -/
def Memory.remove (k : Nat) (m : Memory) : Memory := m.filter fun c => c.1 != k

/-- The memory with cell `k`, which is not listed, put in its place by address. -/
def Memory.insert (k : Nat) (b : Byte) : Memory → Memory
  | [] => [(k, b)]
  | (k', b') :: rest => if k < k' then (k, b) :: (k', b') :: rest else (k', b') :: Memory.insert k b rest

/-- Writing one byte cell, keeping the canonical form: the unlisted value is not listed. -/
def Memory.setByte (k : Nat) (b : Byte) (m : Memory) : Memory :=
  if b = Memory.unlisted then Memory.remove k m else Memory.insert k b (Memory.remove k m)

/-- The word at a word address (20_memory.md R50, R52). -/
def Memory.get (a : Word) (m : Memory) : Word :=
  Memory.getByte (2 * a.toNat) m ++ Memory.getByte (2 * a.toNat + 1) m

/-- `mem[a] <- v`. -/
def Memory.set (a : Word) (v : Word) (m : Memory) : Memory :=
  Memory.setByte (2 * a.toNat + 1) (v.extractLsb' 0 8) (Memory.setByte (2 * a.toNat) (v.extractLsb' 8 8) m)

/-- The canonical form: addresses strictly rising, every cell inside the 65536 words (R50), no cell listed at the
value it reads as unlisted. -/
abbrev Memory.wf (m : Memory) : Prop :=
  m.Pairwise (fun c d => c.1 < d.1) ∧ ∀ c ∈ m, c.1 < 131072 ∧ c.2 ≠ Memory.unlisted

/-! ### memory_mapped_io_arbiter and keyboard -/

/-- The n-th answer the keyboard will give from here on (20_memory.md R57): what `kbDraws` lists, then the free
value. -/
def State.draw (s : State) (n : Nat) : KbDraw := s.kbDraws.getD n (Config.keyboardDraw (s.kbPolls + n))

/-- The state after one answer has been taken. -/
def State.takeDraw (s : State) : State := { s with kbDraws := s.kbDraws.tail, kbPolls := s.kbPolls + 1 }

/-- `MemWrite(addr, 1, v)`: an unconditional store with no side effect, at KBSR and KBDR too (R58). -/
def memWrite (addr v : Word) (s : State) : State := { s with mem := Memory.set addr v s.mem }

/-- The keyboard poll of a KBSR read with its stores (R55, R56): with input pending, KBSR becomes 0x8000 and KBDR the
byte zero-extended (D4); otherwise KBSR becomes 0 and KBDR is not written. -/
def pollKeyboard (s : State) : State :=
  match s.draw 0 with
  | .input b => memWrite s.config.kbdrAddr (zextByte b) (memWrite s.config.kbsrAddr Config.kbsrReady s.takeDraw)
  | .noInput => memWrite s.config.kbsrAddr Config.kbsrEmpty s.takeDraw

/-- What a read of `addr` does to the state before its value is returned (R55). -/
def pollIfKbsr (addr : Word) (s : State) : State := if addr = s.config.kbsrAddr then pollKeyboard s else s

/-- `MemRead(addr, 1)`, the only read of the core (R55, R61): the word, and the state the read leaves. -/
def memRead (addr : Word) (s : State) : Word × State :=
  let s' := pollIfKbsr addr s
  (Memory.get addr s'.mem, s')

/-! ### fetch -/

/-- program_counter_incrementer (40_cycle.md R103, R114). -/
def nextPc (pc : Word) : Word := pc + 1#16

/-- Fetch through the side-effecting read (R102, D5), then the PC write, then what follows (R104). -/
def fetching (s : State) (k : Word → State → Result) : Result :=
  withReg pcIndex s fun fa =>
    let (instr, s') := memRead fa s
    writingReg pcIndex (nextPc fa) s' fun s'' => k instr s''

/-- A step exists only while RUNNING and with no fault recorded (40_cycle.md R101, R107; 60_exceptions.md R203). -/
def whenRunning (s : State) (k : State → Result) : Result :=
  match s.fault, s.run with
  | some (.registerIndexOutOfRange i), _ => .fault (.registerIndexOutOfRange i)
  | none, .halted => .fault .sequencerHalted
  | none, .running => k s

end Sys2Proof.Machine
end

