-- ==== Sys2Proof/Machine/Flags.lean ====
section
/-! DEFINITION. The condition_flag_unit (40_cycle.md R110 to R113) and the write-back every executing handler ends
in (R116). -/

namespace Sys2Proof.Machine

/-- The COND word for a value written to DR (R110, R112): zero, negative (bit 15 set), or positive. -/
def condCode (c : Config) (v : Word) : Word :=
  if v = 0x0000#16 then c.condZero else if v.getLsbD 15 then c.condNeg else c.condPos

/-- `updateFlags(d)`: reads the just-written register and overwrites the whole COND word (R110). -/
def updateFlags (d : Nat) (s : State) : Result :=
  withReg d s fun v => writingReg condIndex (condCode s.config v) s fun s' => .next s'

/-- `x[DR] <- v`, then `updateFlags(DR)`, then Continue (R111, R116). -/
def writeBack (dr : RegField) (v : Word) (s : State) : Result :=
  writingReg dr.toNat v s fun s' => updateFlags dr.toNat s'

end Sys2Proof.Machine
end

