-- ==== Sys2Proof/Machine/Operands.lean ====
section
/-! DEFINITION. The operand forms: a source register, the second operand of ADD and AND, and LD's PC-relative
address. -/

namespace Sys2Proof.Machine

/-- The second operand of ADD and AND, selected by the mode bit (30_encoding.md R85; 41_operate.md R139). -/
inductive Operand2 where
  /-- `x[SR2]`, mode 0. -/
  | reg (sr2 : RegField)
  /-- `sext_5(imm5)`, mode 1, already extended by the decoder (R88). -/
  | imm (v : Word)
  deriving DecidableEq, Repr

/-- Reading a source register field (R83). -/
def withSource (r : RegField) (s : State) (k : Word → Result) : Result := withReg r.toNat s k

/-- Operand-2 select (R139). -/
def withOperand2 (o : Operand2) (s : State) (k : Word → Result) : Result :=
  match o with
  | .reg sr2 => withSource sr2 s k
  | .imm v => k v

/-- `(PC + offset) mod 2^16`, PC being the value after the fetch increment (42_load.md R160, R161; 20_memory.md
R51). -/
def effectiveAddress (pc off : Word) : Word := pc + off

/-- The PC-relative address of LD. -/
def withPcRelative (off : Word) (s : State) (k : Word → Result) : Result :=
  withReg pcIndex s fun pc => k (effectiveAddress pc off)

end Sys2Proof.Machine
end

