-- ==== Sys2Proof/Machine/Load.lean ====
section
/-! DEFINITION. LD (42_load.md). -/

namespace Sys2Proof.Machine

/-- LD, PC-relative (R160): the word read through the arbiter, so that a read of KBSR polls (R164), goes to DR. -/
def execLd (dr : RegField) (off : Word) (s : State) : Result :=
  withPcRelative off s fun ea =>
    let (v, s') := memRead ea s
    writeBack dr v s'

end Sys2Proof.Machine
end

