-- ==== Sys2Proof/Machine/Operate.lean ====
section
/-! DEFINITION. alu_16bit, ADD and AND (41_operate.md). The meanings are the execute phase: PC is already the fetch
address plus 1 (00_scope.md R15). -/

namespace Sys2Proof.Machine

/-- The ALU's operation select (R130). -/
inductive AluOp where
  | add
  | and
  deriving DecidableEq, Repr

/-- alu_16bit: the sum modulo 2^16 (R131, D7), or the bitwise AND (R132); no carry, no overflow (R130). -/
def alu : AluOp → Word → Word → Word
  | .add, a, b => a + b
  | .and, a, b => a &&& b

/-- The handler ADD and AND share: both sources are read before DR is written (10_state.md R37). -/
def operate (op : AluOp) (dr sr1 : RegField) (o : Operand2) (s : State) : Result :=
  withSource sr1 s fun a => withOperand2 o s fun b => writeBack dr (alu op a b) s

/-- ADD, register form (R134). -/
def execAddReg (dr sr1 sr2 : RegField) (s : State) : Result := operate .add dr sr1 (.reg sr2) s

/-- ADD, immediate form (R135). -/
def execAddImm (dr sr1 : RegField) (imm : Word) (s : State) : Result := operate .add dr sr1 (.imm imm) s

/-- AND, register form (R136). -/
def execAndReg (dr sr1 sr2 : RegField) (s : State) : Result := operate .and dr sr1 (.reg sr2) s

/-- AND, immediate form (R137). -/
def execAndImm (dr sr1 : RegField) (imm : Word) (s : State) : Result := operate .and dr sr1 (.imm imm) s

end Sys2Proof.Machine
end

