-- ==== Sys2Proof/Machine/Unimplemented.lean ====
section
/-! DEFINITION. The thirteen halting opcodes (43_unimplemented.md R180, R181). Their effect IS the halt: a next state,
not a refusal and not a fault (R180; 93_implementation_defined.md I5). -/

namespace Sys2Proof.Machine

/-- Dispatch of an unimplemented opcode (R180): `Halt(UnimplementedOpcode)`. PC keeps the fetch address plus 1 (D9). -/
def unimplemented (s : State) : Result := .next (halt .unimplementedOpcode s)

/-- Opcode 0000 (R181). -/
def execUnimpl0000 (s : State) : Result := unimplemented s

/-- Opcode 0011 (R181). -/
def execUnimpl0011 (s : State) : Result := unimplemented s

/-- Opcode 0100 (R181). -/
def execUnimpl0100 (s : State) : Result := unimplemented s

/-- Opcode 0110 (R181). -/
def execUnimpl0110 (s : State) : Result := unimplemented s

/-- Opcode 0111 (R181). -/
def execUnimpl0111 (s : State) : Result := unimplemented s

/-- Opcode 1000 (R181). -/
def execUnimpl1000 (s : State) : Result := unimplemented s

/-- Opcode 1001 (R181). -/
def execUnimpl1001 (s : State) : Result := unimplemented s

/-- Opcode 1010 (R181). -/
def execUnimpl1010 (s : State) : Result := unimplemented s

/-- Opcode 1011 (R181). -/
def execUnimpl1011 (s : State) : Result := unimplemented s

/-- Opcode 1100 (R181). -/
def execUnimpl1100 (s : State) : Result := unimplemented s

/-- Opcode 1101 (R181). -/
def execUnimpl1101 (s : State) : Result := unimplemented s

/-- Opcode 1110 (R181). -/
def execUnimpl1110 (s : State) : Result := unimplemented s

/-- Opcode 1111 (R181). -/
def execUnimpl1111 (s : State) : Result := unimplemented s

end Sys2Proof.Machine
end

