-- ==== Sys2Proof/Machine/Dispatch.lean ====
section
/-! DEFINITION. Dispatch (30_encoding.md R89): one arm per constructor of Instr, one direct call each. -/

namespace Sys2Proof.Machine

def exec (i : Instr) (s : State) : Host.Outcome State Fault Refusal :=
  match i with
  | .addReg dr sr1 sr2 => Sys2Proof.Machine.execAddReg dr sr1 sr2 s
  | .addImm dr sr1 imm => Sys2Proof.Machine.execAddImm dr sr1 imm s
  | .andReg dr sr1 sr2 => Sys2Proof.Machine.execAndReg dr sr1 sr2 s
  | .andImm dr sr1 imm => Sys2Proof.Machine.execAndImm dr sr1 imm s
  | .ld dr off => Sys2Proof.Machine.execLd dr off s
  | .unimpl0000 => Sys2Proof.Machine.execUnimpl0000 s
  | .unimpl0011 => Sys2Proof.Machine.execUnimpl0011 s
  | .unimpl0100 => Sys2Proof.Machine.execUnimpl0100 s
  | .unimpl0110 => Sys2Proof.Machine.execUnimpl0110 s
  | .unimpl0111 => Sys2Proof.Machine.execUnimpl0111 s
  | .unimpl1000 => Sys2Proof.Machine.execUnimpl1000 s
  | .unimpl1001 => Sys2Proof.Machine.execUnimpl1001 s
  | .unimpl1010 => Sys2Proof.Machine.execUnimpl1010 s
  | .unimpl1011 => Sys2Proof.Machine.execUnimpl1011 s
  | .unimpl1100 => Sys2Proof.Machine.execUnimpl1100 s
  | .unimpl1101 => Sys2Proof.Machine.execUnimpl1101 s
  | .unimpl1110 => Sys2Proof.Machine.execUnimpl1110 s
  | .unimpl1111 => Sys2Proof.Machine.execUnimpl1111 s

end Sys2Proof.Machine
end

