-- ==== Sys2Proof/Machine/Step.lean ====
section
/-! DEFINITION. One step of the fetch_execute_sequencer (40_cycle.md R100, R101): fetch, PC increment, decode,
dispatch. -/

namespace Sys2Proof.Machine

/-- One step executes one whole instruction. It exists only while RUNNING. -/
def step (s : State) : Host.Outcome State Fault Refusal :=
  whenRunning s fun s => fetching s fun instr s' => exec (decode instr) s'

/-- `s` with the instruction stored where `step` fetches next, the word at PC (R102). Exact unless PC is KBSR, where
the fetch's own poll overwrites whatever is stored (20_memory.md R60; notes/assumptions/15.md). -/
def State.withFetchWord (s : State) (nbits w : Nat) : State :=
  memWrite s.pc (BitVec.ofNat 16 (w % 2 ^ nbits)) s

end Sys2Proof.Machine
end

