-- ==== Sys2Proof/Machine/Boundary.lean ====
section
/-! DEFINITION. The interface boundary the core sees before its first step and after its last (00_scope.md R5): the
Loader (20_memory.md R62), the boot order (70_reset_and_hazards.md R233) and the Reporter (60_exceptions.md R208). -/

namespace Sys2Proof.Machine

/-- The Loader's failures (60_exceptions.md R204). -/
inductive ImageLoadError where
  /-- The image cannot be opened or read. -/
  | unreadable
  /-- The stream has fewer than two bytes, so no origin (92_eei_decisions.md D25). -/
  | noOrigin
  deriving DecidableEq, Repr

/-- The big-endian 16-bit values of a byte stream; a trailing odd byte is ignored (20_memory.md R62, R63, D25). -/
def wordsOfStream : List Byte → List Word
  | hi :: lo :: rest => (hi ++ lo) :: wordsOfStream rest
  | _ => []

/-- `MemWrite(addr + i, 1, w[i])` in order; words past 0xFFFF are dropped, not wrapped (R62, D8). -/
def storeWords : Nat → List Word → State → State
  | _, [], s => s
  | addr, w :: ws, s => if addr < 65536 then storeWords (addr + 1) ws (memWrite (BitVec.ofNat 16 addr) w s) else s

/-- The Loader on one image stream: the first value is the origin, which is not itself stored (R62). -/
def loadImage (image : List Byte) (s : State) : Except ImageLoadError State :=
  match wordsOfStream image with
  | [] => .error .noOrigin
  | origin :: words => .ok (storeWords origin.toNat words s)

/-- The PC set before the first step, whatever the origin (70_reset_and_hazards.md R231). -/
def State.start (s : State) : State := s.setPc Config.startPc

/-- The boot order (R233): create, load, set PC; on failure no machine runs (60_exceptions.md R204). `none` is an image
that cannot be read. -/
def boot (c : Config) (kb : List KbDraw) (image : Option (List Byte)) : Except ImageLoadError State :=
  match image with
  | none => .error .unreadable
  | some bytes => (loadImage bytes (State.created c kb)).map State.start

/-- What the Reporter receives: R0..R7 once HALTED, nothing before (60_exceptions.md R208). -/
def State.report (s : State) : Option (List Word) :=
  match s.run with
  | .running => none
  | .halted => some [s.gpr 0, s.gpr 1, s.gpr 2, s.gpr 3, s.gpr 4, s.gpr 5, s.gpr 6, s.gpr 7]

end Sys2Proof.Machine
end

