-- ==== Sys2Proof/Safety.lean ====
section
/-! DEFINITION. The terms statements use: a state that can step, the model's invariant, what a step reads, and what
"unchanged" means. -/

namespace Sys2Proof.Machine

/-- The next state, where there is one. -/
def nextOf : Result → Option State
  | .next s => some s
  | .fault _ => none
  | .refused _ => none

/-- The sequencer has a step: RUNNING, no fault recorded (40_cycle.md R101; 60_exceptions.md R203). -/
abbrev State.Live (s : State) : Prop := s.run = .running ∧ s.fault = none

/-- COND holds one of the three flag codes (10_state.md R26). -/
abbrev State.FlagSet (s : State) : Prop :=
  s.cond = s.config.condPos ∨ s.cond = s.config.condZero ∨ s.cond = s.config.condNeg

/-- What holds of every state of a run: valid parameters, canonical memory, COND a flag code or its reset value
(R26), no fault (R32), and a halt reason exactly when HALTED (R31). -/
abbrev State.Inv (s : State) : Prop :=
  s.config.Valid ∧ Memory.wf s.mem ∧ (s.cond = Config.condReset ∨ s.FlagSet) ∧ s.fault = none ∧
  (s.run = .halted ↔ s.haltReason = some .unimplementedOpcode)

/-- Every register file entry but those listed is unchanged. -/
def SameRegsBut (except : List Nat) (s t : State) : Prop :=
  ∀ i, (h : i < 10) → i ∉ except → t.regs[i] = s.regs[i]

/-- Every memory word but those listed reads as before. -/
def SameMemoryBut (except : List Word) (s t : State) : Prop :=
  ∀ a, a ∉ except → Memory.get a t.mem = Memory.get a s.mem

/-- The sequencer's state and the parameters are unchanged. -/
def SameControl (s t : State) : Prop :=
  t.run = s.run ∧ t.haltReason = s.haltReason ∧ t.fault = s.fault ∧ t.config = s.config

/-- No keyboard answer has been taken. -/
def SameKeyboard (s t : State) : Prop := t.kbDraws = s.kbDraws ∧ t.kbPolls = s.kbPolls

/-- Exactly one keyboard answer has been taken: what was to come next is gone, what follows it comes next. -/
def OneDrawTaken (s t : State) : Prop := ∀ n, t.draw n = s.draw (n + 1)

/-- Two states that differ at most in the keyboard's future answers. -/
def AgreeButKeyboard (s t : State) : Prop :=
  t.regs = s.regs ∧ t.mem = s.mem ∧ SameControl s t

/-- The word `memRead` gives at PC: the instruction a step of `s` executes (40_cycle.md R102). -/
def State.fetched (s : State) : Word := (memRead s.pc s).1

/-- The instruction a step of `s` executes reads `a` as its data: an LD with that effective address (20_memory.md
R61). -/
def State.LoadsFrom (s : State) (a : Word) : Prop :=
  ∃ dr off, decode s.fetched = .ld dr off ∧ a.toNat = (s.pc.toNat + 1 + off.toNat) % 65536

/-- A step of `s` reads KBSR, by its fetch or by an LD (R61). -/
def State.ReadsKbsr (s : State) : Prop := s.pc = s.config.kbsrAddr ∨ s.LoadsFrom s.config.kbsrAddr

/-- DR, the register an instruction writes; none for the halting opcodes (10_state.md R23). -/
def destOf : Instr → Option RegField
  | .addReg dr _ _ => some dr
  | .addImm dr _ _ => some dr
  | .andReg dr _ _ => some dr
  | .andImm dr _ _ => some dr
  | .ld dr _ => some dr
  | .unimpl0000 => none
  | .unimpl0011 => none
  | .unimpl0100 => none
  | .unimpl0110 => none
  | .unimpl0111 => none
  | .unimpl1000 => none
  | .unimpl1001 => none
  | .unimpl1010 => none
  | .unimpl1011 => none
  | .unimpl1100 => none
  | .unimpl1101 => none
  | .unimpl1110 => none
  | .unimpl1111 => none

/-- The bits of a word that decide its instruction (30_encoding.md R86): all of an LD or an immediate form, all but
bits 4..3 of a register form, the opcode alone of a halting word. -/
def readBits (w : Word) : Word :=
  if w.toNat / 4096 = 1 ∨ w.toNat / 4096 = 5 then if w.toNat / 32 % 2 = 1 then 0xFFFF#16 else 0xFFE7#16
  else if w.toNat / 4096 = 2 then 0xFFFF#16
  else 0xF000#16

/-- The thirteen halting instructions, one per row of 43_unimplemented.md R181. -/
def haltingInstrs : List Instr :=
  [.unimpl0000, .unimpl0011, .unimpl0100, .unimpl0110, .unimpl0111, .unimpl1000, .unimpl1001, .unimpl1010,
   .unimpl1011, .unimpl1100, .unimpl1101, .unimpl1110, .unimpl1111]

/-- The opcode is one of the three that execute (30_encoding.md R87). -/
abbrev IsExecuting (w : Word) : Prop := w.toNat / 4096 = 1 ∨ w.toNat / 4096 = 2 ∨ w.toNat / 4096 = 5

/-- COND is the flag code of the value `v` (40_cycle.md R110, R112). -/
def FlagOf (c : Config) (v cond : Word) : Prop :=
  (v.toNat = 0 → cond = c.condZero) ∧
  (0x0001 ≤ v.toNat ∧ v.toNat ≤ 0x7FFF → cond = c.condPos) ∧
  (0x8000 ≤ v.toNat → cond = c.condNeg)

/-- What ADD and AND leave unchanged: every register but DR and COND (PC among the unchanged, the execute phase does
not touch it), all memory, the sequencer's state, the parameters, the keyboard's answers. -/
def OperateFrame (dr : RegField) (s t : State) : Prop :=
  SameRegsBut [dr.toNat, 9] s t ∧ SameMemoryBut [] s t ∧ SameControl s t ∧ SameKeyboard s t

/-- The big-endian byte stream of 16-bit values (20_memory.md R62, R63). -/
def streamOf (ws : List Word) : List Byte := ws.flatMap fun w => [w.extractLsb' 8 8, w.extractLsb' 0 8]

end Sys2Proof.Machine
end

