-- ==== Sys2Proof/Certificates/Slice0/Obligations.lean ====
section
/-! DEFINITION. The statements for the provers, from the numbered rules of spec/. A statement over every state quantifies
over the parameters of 00_scope.md R8 too, since they stand in State.config. -/

open Sys2Proof Sys2Proof.Machine

/-! ### Encoding -/

/-- Every well-formed instruction is read back from its word, with every operand at every value (30_encoding.md R82 to
R88). The zeros the encoder writes into unread bits are the model's choice (notes/assumptions/6.md). -/
def Obligations.DecodeEncodeRoundTrip : Prop :=
  ∀ i : Instr, i.wf = true → decode (encode i) = i

/-- 30_encoding.md R88: the decode function, opcode by opcode, with each field as arithmetic on the word's number. The
register-form clauses hold whatever bits 4..3 are, which is the spec's decision D6 (R86; notes/assumptions/6.md). -/
def Obligations.DecodeSelectsFormAndFields : Prop :=
  ∀ w : Word,
    let n := w.toNat
    let dr := BitVec.ofNat 3 (n / 512)
    let sr1 := BitVec.ofNat 3 (n / 64)
    let sr2 := BitVec.ofNat 3 n
    let imm := BitVec.ofInt 16 (if n % 32 < 16 then n % 32 else n % 32 - 32)
    let off := BitVec.ofInt 16 (if n % 512 < 256 then n % 512 else n % 512 - 512)
    (n / 4096 = 1 → n / 32 % 2 = 1 → decode w = .addImm dr sr1 imm) ∧
    (n / 4096 = 1 → n / 32 % 2 = 0 → decode w = .addReg dr sr1 sr2) ∧
    (n / 4096 = 5 → n / 32 % 2 = 1 → decode w = .andImm dr sr1 imm) ∧
    (n / 4096 = 5 → n / 32 % 2 = 0 → decode w = .andReg dr sr1 sr2) ∧
    (n / 4096 = 2 → decode w = .ld dr off) ∧
    (n / 4096 = 0 → decode w = .unimpl0000) ∧ (n / 4096 = 3 → decode w = .unimpl0011) ∧
    (n / 4096 = 4 → decode w = .unimpl0100) ∧ (n / 4096 = 6 → decode w = .unimpl0110) ∧
    (n / 4096 = 7 → decode w = .unimpl0111) ∧ (n / 4096 = 8 → decode w = .unimpl1000) ∧
    (n / 4096 = 9 → decode w = .unimpl1001) ∧ (n / 4096 = 10 → decode w = .unimpl1010) ∧
    (n / 4096 = 11 → decode w = .unimpl1011) ∧ (n / 4096 = 12 → decode w = .unimpl1100) ∧
    (n / 4096 = 13 → decode w = .unimpl1101) ∧ (n / 4096 = 14 → decode w = .unimpl1110) ∧
    (n / 4096 = 15 → decode w = .unimpl1111)

/-- spec/opcode_table.json (30_encoding.md R87): the rows of the table are distinct, and of them exactly one covers a
word, the row of the instruction the decoder reads: it stands in the table, and no other row covers the word. The
register rows' masks leave out bits 4..3 by the spec's decision D6 (notes/assumptions/6.md). -/
def Obligations.ExactlyOneTableRowCoversAWord : Prop :=
  opcodeTable.Nodup ∧
  ∀ w : Word, (decode w).row ∈ opcodeTable ∧ ∀ r ∈ opcodeTable, r.covers w = true ↔ r = (decode w).row

/-- Which bits decide the instruction: all but bits 4..3 of a register form and the payload of a halting opcode
(30_encoding.md R86). That bits 4..3 are ignored is the spec's decision D6 (notes/assumptions/6.md). -/
def Obligations.OnlyReadBitsDecideTheInstruction : Prop :=
  ∀ w v : Word, decode w = decode v ↔ w &&& readBits w = v &&& readBits v

/-- What the decoder gives is well-formed: its immediates lie in the encoded ranges of 30_encoding.md R84. -/
def Obligations.DecodedImmediatesAreInRange : Prop :=
  ∀ w : Word, (decode w).wf = true

/-- 00_scope.md R14: for every width in [1,16], sign extension keeps the two's-complement value of the low bits, sets
every bit above them to the sign bit, and reads no other bit. -/
def Obligations.SignExtensionKeepsTheSignedValue : Prop :=
  ∀ (n : Nat) (v : Word), 1 ≤ n → n ≤ 16 →
    (sext n v).toInt = (BitVec.setWidth n v).toInt ∧
    ∀ i, i < 16 → (sext n v).getLsbD i = if i < n then v.getLsbD i else v.getLsbD (n - 1)

/-- Words written out from the encodings of 30_encoding.md R82 and R92. -/
def Obligations.SampleWordsDecode : Prop :=
  decode 0b0001_000_001_0_00_010#16 = .addReg 0 1 2 ∧
  decode 0b0001_000_001_0_11_010#16 = .addReg 0 1 2 ∧
  decode 0b0001_010_001_1_01111#16 = .addImm 2 1 15#16 ∧
  decode 0b0101_000_001_0_00_010#16 = .andReg 0 1 2 ∧
  decode 0b0101_011_001_1_10000#16 = .andImm 3 1 0xFFF0#16 ∧
  decode 0b0010_001_100000000#16 = .ld 1 0xFF00#16 ∧
  decode 0b1111_000000100101#16 = .unimpl1111 ∧
  decode 0b0000_111111111111#16 = .unimpl0000

/-! ### register_file and memory -/

/-- 10_state.md R21, with the index check of R22: below 10 a read gives the entry and a write replaces that entry alone
and is seen by later reads; from 10 on neither accesses any entry. -/
def Obligations.RegisterFileReadsWhatWasWritten : Prop :=
  ∀ (rf : RegFile) (i : Nat) (v : Word),
    (i < 10 → (∃ x, RegFile.read i rf = .ok x) ∧
      ∃ rf', RegFile.write i v rf = .ok rf' ∧ RegFile.read i rf' = .ok v ∧
        ∀ j, j ≠ i → RegFile.read j rf' = RegFile.read j rf) ∧
    (10 ≤ i → RegFile.read i rf = .error (.registerIndexOutOfRange i) ∧
      RegFile.write i v rf = .error (.registerIndexOutOfRange i))

/-- 60_exceptions.md R203 (decision D14): an access at an index of 10 or more records the fault, changes nothing else
and does not go on, and the state it leaves has no step. The answer `step` gives there is the model's choice
(notes/assumptions/12.md). -/
def Obligations.RangeFaultIsRecordedAndStopsTheMachine : Prop :=
  ∀ (s : State) (i : Nat) (v : Word) (k : Word → Result) (k' : State → Result), 10 ≤ i →
    ∃ t, withReg i s k = .next t ∧ writingReg i v s k' = .next t ∧
      t.fault = some (.registerIndexOutOfRange i) ∧ SameRegsBut [] s t ∧ SameMemoryBut [] s t ∧ SameKeyboard s t ∧
      t.run = s.run ∧ t.haltReason = s.haltReason ∧ t.config = s.config ∧
      step t = .fault (.registerIndexOutOfRange i)

/-- 20_memory.md R58: a write stores its word verbatim at every address, KBSR and KBDR among them, polls nothing and
changes no other word. -/
def Obligations.MemoryWriteStoresVerbatim : Prop :=
  ∀ (a v : Word) (s : State),
    Memory.get a (memWrite a v s).mem = v ∧ SameMemoryBut [a] s (memWrite a v s) ∧
      SameRegsBut [] s (memWrite a v s) ∧ SameControl s (memWrite a v s) ∧ SameKeyboard s (memWrite a v s)

/-- 20_memory.md R55, R59, R60: what a read gives and changes. Only a read of KBSR has an effect; it returns the word
its own poll has just stored. That the byte is zero-extended is the spec's decision D4 (notes/assumptions/4.md). -/
def Obligations.MemoryReadPollsOnlyAtKbsr : Prop :=
  ∀ (a : Word) (s : State),
    (a ≠ s.config.kbsrAddr → memRead a s = (Memory.get a s.mem, s)) ∧
    (a = s.config.kbsrAddr → s.config.kbsrAddr ≠ s.config.kbdrAddr →
      ∃ v t, memRead a s = (v, t) ∧ SameRegsBut [] s t ∧ SameControl s t ∧ OneDrawTaken s t ∧
        Memory.get s.config.kbsrAddr t.mem = v ∧
        (s.draw 0 = .noInput → v = 0x0000#16 ∧ SameMemoryBut [s.config.kbsrAddr] s t) ∧
        ∀ b, s.draw 0 = .input b →
          v = 0x8000#16 ∧ (Memory.get s.config.kbdrAddr t.mem).toNat = b.toNat ∧
            SameMemoryBut [s.config.kbsrAddr, s.config.kbdrAddr] s t)

/-- The byte cells the model holds memory in cannot be told apart from words: two memories in canonical form that read
alike at every word address are one list (20_memory.md R50, R63; the model's choice, notes/assumptions/1.md). -/
def Obligations.CanonicalMemoriesAreEqualWhenTheyReadAlike : Prop :=
  ∀ m m' : Memory, Memory.wf m → Memory.wf m' → (∀ a : Word, Memory.get a m = Memory.get a m') → m = m'

/-! ### The instructions: result, flags, frame and completion -/

/-- 41_operate.md R134: ADD, register form, at every state and for every operand, DR = SR1 and DR = SR2 among them. The
ignored bits 4..3 and the sum modulo 2^16 are the spec's decisions D6 and D7 (notes/assumptions/6.md, 7.md). -/
def Obligations.AddRegisterWritesTheSum : Prop :=
  ∀ (dr sr1 sr2 : RegField) (unused : BitVec 2) (s : State),
    decode (packOPR 0b0001#4 dr sr1 unused sr2) = .addReg dr sr1 sr2 ∧
    ∃ t, exec (.addReg dr sr1 sr2) s = .next t ∧
      (t.gpr dr).toNat = ((s.gpr sr1).toNat + (s.gpr sr2).toNat) % 65536 ∧
      FlagOf s.config (t.gpr dr) t.cond ∧ OperateFrame dr s t

/-- 41_operate.md R135: ADD, immediate form. The exec clause holds for every 16-bit immediate, the encodable ones among
them. The sum modulo 2^16 is the spec's decision D7 (notes/assumptions/7.md). -/
def Obligations.AddImmediateWritesTheSum : Prop :=
  ∀ (dr sr1 : RegField) (imm5 : BitVec 5) (imm : Word) (s : State),
    decode (packOPI 0b0001#4 dr sr1 imm5) = .addImm dr sr1 (BitVec.ofInt 16 imm5.toInt) ∧
    ∃ t, exec (.addImm dr sr1 imm) s = .next t ∧
      (t.gpr dr).toNat = ((s.gpr sr1).toNat + imm.toNat) % 65536 ∧
      FlagOf s.config (t.gpr dr) t.cond ∧ OperateFrame dr s t

/-- 41_operate.md R136: AND, register form. The ignored bits 4..3 are the spec's decision D6
(notes/assumptions/6.md). -/
def Obligations.AndRegisterWritesTheConjunction : Prop :=
  ∀ (dr sr1 sr2 : RegField) (unused : BitVec 2) (s : State),
    decode (packOPR 0b0101#4 dr sr1 unused sr2) = .andReg dr sr1 sr2 ∧
    ∃ t, exec (.andReg dr sr1 sr2) s = .next t ∧
      (∀ i, i < 16 → (t.gpr dr).getLsbD i = ((s.gpr sr1).getLsbD i && (s.gpr sr2).getLsbD i)) ∧
      FlagOf s.config (t.gpr dr) t.cond ∧ OperateFrame dr s t

/-- 41_operate.md R137: AND, immediate form. -/
def Obligations.AndImmediateWritesTheConjunction : Prop :=
  ∀ (dr sr1 : RegField) (imm5 : BitVec 5) (imm : Word) (s : State),
    decode (packOPI 0b0101#4 dr sr1 imm5) = .andImm dr sr1 (BitVec.ofInt 16 imm5.toInt) ∧
    ∃ t, exec (.andImm dr sr1 imm) s = .next t ∧
      (∀ i, i < 16 → (t.gpr dr).getLsbD i = ((s.gpr sr1).getLsbD i && imm.getLsbD i)) ∧
      FlagOf s.config (t.gpr dr) t.cond ∧ OperateFrame dr s t

/-- 41_operate.md R131: the sum is the same under the signed reading, wrapping on overflow (decision D7,
notes/assumptions/7.md). -/
def Obligations.AddAgreesWithTwosComplement : Prop :=
  ∀ (dr sr1 sr2 : RegField) (imm : Word) (s : State),
    (∃ t, exec (.addReg dr sr1 sr2) s = .next t ∧
      (t.gpr dr).toInt = Int.bmod ((s.gpr sr1).toInt + (s.gpr sr2).toInt) 65536) ∧
    ∃ t, exec (.addImm dr sr1 imm) s = .next t ∧
      (t.gpr dr).toInt = Int.bmod ((s.gpr sr1).toInt + imm.toInt) 65536

/-- 41_operate.md R132: an AND immediate of -16..-1 keeps bits 15..5 of its operand, one of 0..15 clears them. -/
def Obligations.AndImmediateKeepsOrClearsTheHighBits : Prop :=
  ∀ (dr sr1 : RegField) (imm : Word) (s : State), (Instr.andImm dr sr1 imm).wf = true →
    ∃ t, exec (.andImm dr sr1 imm) s = .next t ∧
      (imm.toInt < 0 → ∀ i, 5 ≤ i → i < 16 → (t.gpr dr).getLsbD i = (s.gpr sr1).getLsbD i) ∧
      (0 ≤ imm.toInt → (t.gpr dr).toNat < 16)

/-- 42_load.md R160: LD writes to DR the word that MemRead gives at (PC + offset) mod 2^16, PC being the incremented
one, sets COND from it, and leaves memory and the keyboard as that read does. -/
def Obligations.LoadWritesTheWordRead : Prop :=
  ∀ (dr : RegField) (off9 : BitVec 9) (off ea : Word) (s : State),
    ea.toNat = (s.pc.toNat + off.toNat) % 65536 →
    decode (packPCR dr off9) = .ld dr (BitVec.ofInt 16 off9.toInt) ∧
    ∃ t, exec (.ld dr off) s = .next t ∧
      t.gpr dr = (memRead ea s).1 ∧ FlagOf s.config (t.gpr dr) t.cond ∧
      SameRegsBut [dr.toNat, 9] s t ∧ SameControl s t ∧
      SameMemoryBut [] (memRead ea s).2 t ∧ SameKeyboard (memRead ea s).2 t

/-- LD's frame and values away from KBSR (42_load.md R160, R163; 20_memory.md R59): any address but KBSR, KBDR among
them, is read with no effect on memory or keyboard. -/
def Obligations.LoadAwayFromKbsrChangesDrAndCondOnly : Prop :=
  ∀ (dr : RegField) (off ea : Word) (s : State),
    ea.toNat = (s.pc.toNat + off.toNat) % 65536 → ea ≠ s.config.kbsrAddr →
    ∃ t, exec (.ld dr off) s = .next t ∧
      t.gpr dr = Memory.get ea s.mem ∧ FlagOf s.config (t.gpr dr) t.cond ∧
      SameRegsBut [dr.toNat, 9] s t ∧ SameMemoryBut [] s t ∧ SameControl s t ∧ SameKeyboard s t

/-- 42_load.md R164: LD of KBSR polls the keyboard. The zero-extension of the byte is decision D4
(notes/assumptions/4.md). -/
def Obligations.LoadOfKbsrPollsTheKeyboard : Prop :=
  ∀ (dr : RegField) (off : Word) (s : State), s.config.Valid →
    s.config.kbsrAddr.toNat = (s.pc.toNat + off.toNat) % 65536 →
    ∃ t, exec (.ld dr off) s = .next t ∧
      SameRegsBut [dr.toNat, 9] s t ∧ SameControl s t ∧ OneDrawTaken s t ∧
      (s.draw 0 = .noInput →
        t.gpr dr = 0x0000#16 ∧ t.cond = s.config.condZero ∧ Memory.get s.config.kbsrAddr t.mem = 0x0000#16 ∧
          SameMemoryBut [s.config.kbsrAddr] s t) ∧
      ∀ b, s.draw 0 = .input b →
        t.gpr dr = 0x8000#16 ∧ t.cond = s.config.condNeg ∧ Memory.get s.config.kbsrAddr t.mem = 0x8000#16 ∧
          (Memory.get s.config.kbdrAddr t.mem).toNat = b.toNat ∧
          SameMemoryBut [s.config.kbsrAddr, s.config.kbdrAddr] s t

/-- 43_unimplemented.md R180, R181: a word decodes to one of the thirteen halting instructions exactly when its opcode
is not 0001, 0010 or 0101, and each of the thirteen (unimpl0000, unimpl0011, unimpl0100, unimpl0110, unimpl0111,
unimpl1000, unimpl1001, unimpl1010, unimpl1011, unimpl1100, unimpl1101, unimpl1110, unimpl1111) completes with the halt
and its reason, and changes nothing else. That PC too keeps its value, the fetch address plus 1, is the spec's decision
D9 (conflict C2; notes/assumptions/8.md). -/
def Obligations.UnimplementedOpcodesHalt : Prop :=
  (∀ w : Word, decode w ∈ haltingInstrs ↔ ¬ IsExecuting w) ∧
  ∀ i ∈ haltingInstrs, ∀ s : State, ∃ t, exec i s = .next t ∧
    t.run = .halted ∧ t.haltReason = some .unimplementedOpcode ∧
    SameRegsBut [] s t ∧ SameMemoryBut [] s t ∧ SameKeyboard s t ∧ t.fault = s.fault ∧ t.config = s.config

/-- Whole-machine rule (60_exceptions.md R202, R206; 41_operate.md R138; 40_cycle.md R25, R116): every instruction in
every state completes, raises no fault, leaves PC and the parameters alone, and writes COND and at most DR. For the
halting opcodes PC unchanged is the spec's decision D9 (notes/assumptions/8.md). -/
def Obligations.EveryInstructionCompletesWithoutFault : Prop :=
  ∀ (i : Instr) (s : State), ∃ t, exec i s = .next t ∧ t.fault = s.fault ∧ t.pc = s.pc ∧ t.config = s.config ∧
    ∀ r, destOf i ≠ some r → t.gpr r = s.gpr r

/-! ### The step -/

/-- 40_cycle.md R101 to R104: a step fetches through the side-effecting read, increments PC, decodes and executes. Away
from KBSR the instruction is the word at PC and the fetch has no other effect. That a fetch at KBSR polls is decision
D5 (notes/assumptions/5.md). -/
def Obligations.StepRunsTheDecodedInstruction : Prop :=
  ∀ s : State, s.Live →
    step s = exec (decode (memRead s.pc s).1) ((memRead s.pc s).2.setPc (s.pc + 1#16)) ∧
    ∀ i, s.pc ≠ s.config.kbsrAddr → decode (Memory.get s.pc s.mem) = i →
      step s = exec i (s.setPc (s.pc + 1#16))

/-- 40_cycle.md R103: every step of a live state completes with PC advanced by one modulo 2^16, whatever the word
fetched, the increment standing between the fetch and the dispatch. That a halting word leaves PC there is the spec's
decision D9 (conflict C2; notes/assumptions/8.md), and that the fetch is the polling read at KBSR is its decision D5
(notes/assumptions/5.md). -/
def Obligations.EveryStepAdvancesPcByOne : Prop :=
  ∀ s : State, s.Live → ∃ t, step s = .next t ∧ t.pc.toNat = (s.pc.toNat + 1) % 65536 ∧
    step s = exec (decode (memRead s.pc s).1) ((memRead s.pc s).2.setPc t.pc)

/-- A step exists exactly while RUNNING with no fault recorded (40_cycle.md R101, R107; 60_exceptions.md R203). What
`step` answers otherwise is the model's choice (notes/assumptions/11.md, 12.md). -/
def Obligations.StepExistsExactlyWhileRunning : Prop :=
  ∀ s : State, ((∃ t, step s = .next t) ↔ s.Live) ∧
    (s.fault = none → s.run = .halted → step s = .fault .sequencerHalted) ∧
    ∀ i, s.fault = some (.registerIndexOutOfRange i) → step s = .fault (.registerIndexOutOfRange i)

/-- 10_state.md R23: a general-purpose register changes only as the DR of an executing ADD, AND or LD. -/
def Obligations.GprChangesOnlyAsDestination : Prop :=
  ∀ (s t : State) (r : RegField), step s = .next t → t.gpr r ≠ s.gpr r → destOf (decode s.fetched) = some r

/-- 40_cycle.md R110, R111; 10_state.md R27: after a step COND is the flag code of the value now in DR, or, for a
halting word, what it was. -/
def Obligations.CondFollowsTheRegisterWritten : Prop :=
  ∀ s t : State, step s = .next t →
    (∀ dr, destOf (decode s.fetched) = some dr → FlagOf s.config (t.gpr dr) t.cond) ∧
    (destOf (decode s.fetched) = none → t.cond = s.cond)

/-- 10_state.md R26: after a register-writing step exactly one flag is active, and from then on always. It rests on the
constraints of decision D3 (the premise Valid) and on the reading of conflict C1. -/
def Obligations.ExactlyOneFlagAfterTheFirstUpdate : Prop :=
  ∀ s t : State, s.config.Valid → step s = .next t → (s.FlagSet ∨ IsExecuting s.fetched) →
    (t.cond = t.config.condPos ∧ t.cond ≠ t.config.condZero ∧ t.cond ≠ t.config.condNeg) ∨
    (t.cond ≠ t.config.condPos ∧ t.cond = t.config.condZero ∧ t.cond ≠ t.config.condNeg) ∨
    (t.cond ≠ t.config.condPos ∧ t.cond ≠ t.config.condZero ∧ t.cond = t.config.condNeg)

/-- 10_state.md R28: no instruction reads COND; another COND before the step makes a difference to COND alone. -/
def Obligations.NoInstructionReadsCond : Prop :=
  ∀ (s t : State) (c : Word), step s = .next t → ∃ c', step (s.setCond c) = .next (t.setCond c')

/-- 20_memory.md R61, R65, R68: a step changes memory only by the poll stores of a KBSR read, at KBSR and KBDR, and
takes one keyboard answer when it reads KBSR and none otherwise (R57; fetch polls by decision D5). -/
def Obligations.MemoryChangesOnlyByAKeyboardPoll : Prop :=
  ∀ s t : State, step s = .next t →
    SameMemoryBut [s.config.kbsrAddr, s.config.kbdrAddr] s t ∧
    (s.ReadsKbsr → OneDrawTaken s t) ∧
    (¬ s.ReadsKbsr → SameMemoryBut [] s t ∧ SameKeyboard s t)

/-- 60_exceptions.md R205: a waiting input byte does nothing until KBSR is read. That there is no interrupt is the
spec's decision D12 (notes/assumptions/16.md); that a fetch at KBSR is such a read is its decision D5
(notes/assumptions/5.md). -/
def Obligations.InputIsUnseenUntilKbsrIsRead : Prop :=
  ∀ s s' t : State, AgreeButKeyboard s s' → ¬ s.ReadsKbsr → step s = .next t →
    ∃ t', step s' = .next t' ∧ AgreeButKeyboard t t' ∧ SameKeyboard s' t'

/-- 20_memory.md R70: the fetch after an LD of KBSR sees the poll's stores; at KBDR it fetches the byte just read (zero
extended by decision D4, notes/assumptions/4.md). -/
def Obligations.NextFetchSeesThePollStores : Prop :=
  ∀ (s t : State) (b : Byte), s.config.Valid → s.pc ≠ s.config.kbsrAddr → s.LoadsFrom s.config.kbsrAddr →
    s.draw 0 = .input b → t.pc = s.config.kbdrAddr → step s = .next t → t.fetched.toNat = b.toNat

/-- A fetch at KBSR always halts, with the poll's stores left in memory (40_cycle.md R102, R108; 43_unimplemented.md
R180). It rests on decisions D4, D5 and, for PC after the halt, D9 (conflict C2; notes/assumptions/4.md, 5.md,
8.md). -/
def Obligations.FetchAtKbsrHalts : Prop :=
  ∀ s : State, s.Live → s.config.Valid → s.pc = s.config.kbsrAddr →
    ∃ t, step s = .next t ∧ t.run = .halted ∧ t.haltReason = some .unimplementedOpcode ∧
      t.pc = s.pc + 1#16 ∧ SameRegsBut [8] s t ∧ OneDrawTaken s t ∧ t.fault = none ∧ t.config = s.config ∧
      (s.draw 0 = .noInput →
        Memory.get s.config.kbsrAddr t.mem = 0x0000#16 ∧ SameMemoryBut [s.config.kbsrAddr] s t) ∧
      ∀ b, s.draw 0 = .input b →
        Memory.get s.config.kbsrAddr t.mem = 0x8000#16 ∧ (Memory.get s.config.kbdrAddr t.mem).toNat = b.toNat ∧
          SameMemoryBut [s.config.kbsrAddr, s.config.kbdrAddr] s t

/-- 43_unimplemented.md R180, 40_cycle.md R106, R107, 60_exceptions.md R201: a halting word freezes the machine with PC
at the fetch address plus 1 (decision D9, conflict C2; notes/assumptions/8.md), and no later step exists (the answer is
the model's choice, notes/assumptions/11.md). -/
def Obligations.HaltingWordFreezesTheMachine : Prop :=
  ∀ s : State, s.Live → s.pc ≠ s.config.kbsrAddr → ¬ IsExecuting (Memory.get s.pc s.mem) →
    ∃ t, step s = .next t ∧ t.run = .halted ∧ t.haltReason = some .unimplementedOpcode ∧
      t.pc - 1#16 = s.pc ∧ SameRegsBut [8] s t ∧ SameMemoryBut [] s t ∧ SameKeyboard s t ∧
      t.fault = none ∧ t.config = s.config ∧
      ∀ n, Host.Core.run Sys2Proof.core (n + 1) t = .fault .sequencerHalted

/-- 30_encoding.md R89, R90; 40_cycle.md R105: a step halts exactly when the fetched opcode is not 0001, 0010 or 0101.
What a fetch at KBSR gives is decision D5 (notes/assumptions/5.md). -/
def Obligations.StepHaltsExactlyOnUnimplementedOpcodes : Prop :=
  ∀ s t : State, step s = .next t →
    (t.run = .running ↔ IsExecuting s.fetched) ∧ (IsExecuting s.fetched → t.haltReason = s.haltReason)

/-- 42_load.md R161, R162: an LD fetched at fa reads the word at (fa + 1 + offset) mod 2^16, the offset signed and not
scaled. -/
def Obligations.LoadAddressIsRelativeToTheNextWord : Prop :=
  ∀ (s : State) (dr : RegField) (off9 : BitVec 9) (ea : Word), s.Live → s.pc ≠ s.config.kbsrAddr →
    Memory.get s.pc s.mem = packPCR dr off9 → (ea.toNat : Int) = (s.pc.toNat + 1 + off9.toInt) % 65536 →
    ea ≠ s.config.kbsrAddr →
    ∃ t, step s = .next t ∧ t.gpr dr = Memory.get ea s.mem ∧ SameMemoryBut [] s t

/-- 42_load.md R165: an LD with PCoffset9 = -1 loads its own word, and COND becomes POS. -/
def Obligations.LoadOfOwnWord : Prop :=
  ∀ (s : State) (dr : RegField), s.Live → s.pc ≠ s.config.kbsrAddr →
    Memory.get s.pc s.mem = packPCR dr 0b111111111#9 →
    ∃ t, step s = .next t ∧ t.gpr dr = packPCR dr 0b111111111#9 ∧ t.cond = s.config.condPos

/-! ### Invariant, runs, reset and boundary -/

/-- The invariant holds at reset: valid parameters, canonical memory, COND at its reset value, no fault, no halt
reason. COND's reset value is the spec's decision D19 (conflict C1; notes/assumptions/14.md), the parameters its
presumed defaults (notes/assumptions/2.md, 3.md). -/
def Obligations.InvariantHoldsAtReset : Prop := State.reset.Inv

/-- The invariant is kept by every step from every state that has it: the parameters stay valid, memory canonical, COND
a flag code or its reset value (10_state.md R26; the latter by decision D19, notes/assumptions/14.md), no fault (R32), a
halt reason exactly when HALTED (R31). The canonical form is the model's (notes/assumptions/1.md). -/
def Obligations.InvariantKeptByEveryStep : Prop :=
  ∀ s t : State, s.Inv → step s = .next t → t.Inv

/-- Every booted machine has the invariant, whatever its image (70_reset_and_hazards.md R233). COND's reset value is
decision D19 (notes/assumptions/14.md), the Loader's truncation D8 (notes/assumptions/9.md). -/
def Obligations.InvariantHoldsAfterBoot : Prop :=
  ∀ (c : Config) (kb : List KbDraw) (image : Option (List Byte)) (s : State), c.Valid →
    boot c kb image = .ok s → s.Inv

/-- 10_state.md R38: at creation every register is zero; PC is then set to 0x3000, the only register that reset
changes. That COND is among the zero registers, with no flag active, is the spec's decision D19 (conflict C1;
notes/assumptions/14.md). -/
def Obligations.RegistersAtCreationAndReset : Prop :=
  (∀ (c : Config) (kb : List KbDraw) (i : Nat), (h : i < 10) → (State.created c kb).regs[i] = 0#16) ∧
  State.reset.pc = 0x3000#16 ∧ SameRegsBut [8] (State.created Config.spec []) State.reset

/-- 70_reset_and_hazards.md R231: a booted machine starts at 0x3000 whatever the origin, RUNNING, with every other
register zero (10_state.md R38, R40), no halt reason and no fault (R232, R40), and with the parameters and the keyboard
it was given. COND = 0x0000 is the spec's decision D19 (conflict C1; notes/assumptions/14.md). -/
def Obligations.BootStartsAt3000WhateverTheOrigin : Prop :=
  ∀ (c : Config) (kb : List KbDraw) (image : Option (List Byte)) (s : State), boot c kb image = .ok s →
    s.pc = 0x3000#16 ∧ (∀ i, (h : i < 10) → i ≠ 8 → s.regs[i] = 0#16) ∧ s.Live ∧ s.haltReason = none ∧
      s.config = c ∧ s.kbDraws = kb

/-- 20_memory.md R62: after loading, the words of the image stand at origin and on, every other word is zero, and the
words that would fall beyond 0xFFFF are dropped (decisions D8 and D25, notes/assumptions/9.md). -/
def Obligations.LoaderPlacesTheImageAtItsOrigin : Prop :=
  ∀ (c : Config) (kb : List KbDraw) (origin : Word) (ws : List Word) (odd : List Byte), odd.length ≤ 1 →
    ∃ s, boot c kb (some (streamOf (origin :: ws) ++ odd)) = .ok s ∧
      ∀ a : Word, Memory.get a s.mem =
        if origin.toNat ≤ a.toNat then ws.getD (a.toNat - origin.toNat) 0x0000#16 else 0x0000#16

/-- 60_exceptions.md R204 and decision D25 (notes/assumptions/9.md): an image that cannot be read or has no origin is an
ImageLoadError and no machine runs; every other image loads. -/
def Obligations.BootFailsExactlyWithoutAnOrigin : Prop :=
  ∀ (c : Config) (kb : List KbDraw) (image : Option (List Byte)),
    (∃ s, boot c kb image = .ok s) ↔ ∃ bytes, image = some bytes ∧ 2 ≤ bytes.length

/-- 60_exceptions.md R208: on halt the core exposes R0..R7, and nothing before. -/
def Obligations.ReporterReceivesTheGprsOnHalt : Prop :=
  ∀ s : State, (s.run = .running → s.report = none) ∧
    (s.run = .halted → ∃ l, s.report = some l ∧ l.length = 8 ∧ ∀ r : RegField, l[r.toNat]? = some (s.gpr r))

/-- 40_cycle.md R105, R117: there is no control transfer (decision D23, notes/assumptions/23.md); after n steps PC has
advanced by n. For a run whose last step halts this rests on decision D9 (conflict C2; notes/assumptions/8.md). -/
def Obligations.RunsFetchConsecutiveAddresses : Prop :=
  ∀ (n : Nat) (s t : State), Host.Core.run Sys2Proof.core n s = .next t →
    t.pc.toNat = (s.pc.toNat + n) % 65536

/-- 40_cycle.md R108: from every live state the run halts within ((KBSR_ADDR - PC) mod 2^16) + 1 steps, for every
parameter value, memory and keyboard. It rests on decision D5 (notes/assumptions/5.md). -/
def Obligations.EveryRunHaltsByKbsr : Prop :=
  ∀ s : State, s.Live →
    ∃ n t, 1 ≤ n ∧ n ≤ (s.config.kbsrAddr - s.pc).toNat + 1 ∧ Host.Core.run Sys2Proof.core n s = .next t ∧
      t.run = .halted ∧ t.haltReason = some .unimplementedOpcode ∧ t.fault = none

/-- 40_cycle.md R108 with the default KBSR address: every booted machine halts within 52737 steps, whatever its image
and keyboard (decisions D1 and D5, notes/assumptions/2.md, 5.md). -/
def Obligations.EveryBootedRunHaltsWithin52737Steps : Prop :=
  ∀ (kb : List KbDraw) (image : Option (List Byte)) (s : State), boot Config.spec kb image = .ok s →
    ∃ n t, n ≤ 52737 ∧ Host.Core.run Sys2Proof.core n s = .next t ∧ t.run = .halted ∧
      t.haltReason = some .unimplementedOpcode

/-- 00_scope.md R18: a run is determined by the state and the keyboard's answers. Two states that agree in all but how
those answers are held, and whose answers are the same, run alike for any number of steps. -/
def Obligations.RunsAreDeterminedByTheKeyboardAnswers : Prop :=
  ∀ (n : Nat) (s s' : State), AgreeButKeyboard s s' → (∀ k, s'.draw k = s.draw k) →
    (∀ t, Host.Core.run Sys2Proof.core n s = .next t →
      ∃ t', Host.Core.run Sys2Proof.core n s' = .next t' ∧ AgreeButKeyboard t t' ∧ ∀ k, t'.draw k = t.draw k) ∧
    (∀ f, Host.Core.run Sys2Proof.core n s = .fault f → Host.Core.run Sys2Proof.core n s' = .fault f)
end

