-- ==== Sys2Proof/Laws/Encoding.lean ====
section
/-! SUPPORT. The decoder's fields and the encoder's formats as arithmetic on the word's number, so that facts about
encodings come down to linear arithmetic. -/

namespace Sys2Proof

/-! ### The fields a word is cut into (30_encoding.md R81, R83) -/

theorem opcodeOf_toNat (w : Word) : (opcodeOf w).toNat = w.toNat / 4096 := by
  have := w.isLt
  simp only [opcodeOf, BitVec.extractLsb'_toNat, Nat.shiftRight_eq_div_pow]
  omega

theorem drOf_toNat (w : Word) : (drOf w).toNat = w.toNat / 512 % 8 := by
  simp [drOf, BitVec.extractLsb'_toNat, Nat.shiftRight_eq_div_pow]

theorem sr1Of_toNat (w : Word) : (sr1Of w).toNat = w.toNat / 64 % 8 := by
  simp [sr1Of, BitVec.extractLsb'_toNat, Nat.shiftRight_eq_div_pow]

theorem sr2Of_toNat (w : Word) : (sr2Of w).toNat = w.toNat % 8 := by
  simp [sr2Of, BitVec.extractLsb'_toNat]

theorem modeOf_eq (w : Word) : modeOf w = decide (w.toNat / 32 % 2 = 1) := by
  simp [modeOf, BitVec.getLsbD, Nat.testBit, Nat.shiftRight_eq_div_pow]
  rcases Nat.mod_two_eq_zero_or_one (w.toNat / 32) with h | h <;> simp [h]

/-! ### The formats of R82 -/

theorem packOPR_toNat (op : BitVec 4) (dr sr1 : RegField) (unused : BitVec 2) (sr2 : RegField) :
    (packOPR op dr sr1 unused sr2).toNat =
      op.toNat * 4096 + dr.toNat * 512 + sr1.toNat * 64 + unused.toNat * 8 + sr2.toNat := by
  have h1 := sr2.isLt
  have h2 := unused.isLt
  have h3 := sr1.isLt
  have h4 := dr.isLt
  refine (BitVec.toNat_append ..).trans ?_
  rw [← Nat.shiftLeft_add_eq_or_of_lt h1]
  rw [BitVec.toNat_append, ← Nat.shiftLeft_add_eq_or_of_lt h2]
  rw [BitVec.toNat_append, ← Nat.shiftLeft_add_eq_or_of_lt (by decide : (0#1).toNat < 2 ^ 1)]
  rw [BitVec.toNat_append, ← Nat.shiftLeft_add_eq_or_of_lt h3]
  rw [BitVec.toNat_append, ← Nat.shiftLeft_add_eq_or_of_lt h4]
  simp only [Nat.shiftLeft_eq, BitVec.toNat_ofNat]
  omega

theorem packOPI_toNat (op : BitVec 4) (dr sr1 : RegField) (imm5 : BitVec 5) :
    (packOPI op dr sr1 imm5).toNat = op.toNat * 4096 + dr.toNat * 512 + sr1.toNat * 64 + 32 + imm5.toNat := by
  have h1 := imm5.isLt
  have h3 := sr1.isLt
  have h4 := dr.isLt
  refine (BitVec.toNat_append ..).trans ?_
  rw [← Nat.shiftLeft_add_eq_or_of_lt h1]
  rw [BitVec.toNat_append, ← Nat.shiftLeft_add_eq_or_of_lt (by decide : (1#1).toNat < 2 ^ 1)]
  rw [BitVec.toNat_append, ← Nat.shiftLeft_add_eq_or_of_lt h3]
  rw [BitVec.toNat_append, ← Nat.shiftLeft_add_eq_or_of_lt h4]
  simp only [Nat.shiftLeft_eq, BitVec.toNat_ofNat]
  omega

theorem packPCR_toNat (dr : RegField) (off9 : BitVec 9) :
    (packPCR dr off9).toNat = 2 * 4096 + dr.toNat * 512 + off9.toNat := by
  have h1 := off9.isLt
  have h4 := dr.isLt
  refine (BitVec.toNat_append ..).trans ?_
  rw [← Nat.shiftLeft_add_eq_or_of_lt h1]
  rw [BitVec.toNat_append, ← Nat.shiftLeft_add_eq_or_of_lt h4]
  simp only [Nat.shiftLeft_eq, BitVec.toNat_ofNat]
  omega

theorem packUNI_toNat (op : BitVec 4) (payload : BitVec 12) :
    (packUNI op payload).toNat = op.toNat * 4096 + payload.toNat := by
  have h1 := payload.isLt
  refine (BitVec.toNat_append ..).trans ?_
  rw [← Nat.shiftLeft_add_eq_or_of_lt h1]
  simp only [Nat.shiftLeft_eq]

/-! ### decode, opcode by opcode (30_encoding.md R87, R88) -/

theorem decode_add {w : Word} (h : w.toNat / 4096 = 1) :
    decode w = if modeOf w then .addImm (drOf w) (sr1Of w) (imm5Of w) else .addReg (drOf w) (sr1Of w) (sr2Of w) := by
  simp only [decode, opcodeOf_toNat, h]

theorem decode_and {w : Word} (h : w.toNat / 4096 = 5) :
    decode w = if modeOf w then .andImm (drOf w) (sr1Of w) (imm5Of w) else .andReg (drOf w) (sr1Of w) (sr2Of w) := by
  simp only [decode, opcodeOf_toNat, h]

theorem decode_ld {w : Word} (h : w.toNat / 4096 = 2) : decode w = .ld (drOf w) (off9Of w) := by
  simp only [decode, opcodeOf_toNat, h]

end Sys2Proof
end

