-- ==== Sys2Proof/Laws/Memory.lean ====
section
/-! SUPPORT. The laws of memory_16bit: read after write, the canonical form and its being canonical (two memories in
the form that read alike are one list). -/

namespace Sys2Proof.Machine

/-! ### One cell -/

theorem getByte_remove_self (k : Nat) (m : Memory) : Memory.getByte k (Memory.remove k m) = Memory.unlisted := by
  induction m with
  | nil => rfl
  | cons c rest ih =>
    obtain ⟨k', b⟩ := c
    by_cases h : k' = k
    · simpa [Memory.remove, h] using ih
    · simpa [Memory.remove, Memory.getByte, h] using ih

theorem getByte_remove_other {j k : Nat} (hjk : j ≠ k) (m : Memory) :
    Memory.getByte j (Memory.remove k m) = Memory.getByte j m := by
  induction m with
  | nil => rfl
  | cons c rest ih =>
    obtain ⟨k', b⟩ := c
    by_cases h : k' = k
    · subst h
      simpa [Memory.remove, Memory.getByte, Ne.symm hjk] using ih
    · simp only [Memory.remove, bne_iff_ne, ne_eq, h, not_false_eq_true, List.filter_cons_of_pos, Memory.getByte]
      rw [← ih, Memory.remove]

theorem getByte_insert_other {j k : Nat} (hjk : j ≠ k) (b : Byte) (m : Memory) :
    Memory.getByte j (Memory.insert k b m) = Memory.getByte j m := by
  induction m with
  | nil => simp [Memory.insert, Memory.getByte, Ne.symm hjk]
  | cons c rest ih =>
    obtain ⟨k', b'⟩ := c
    simp only [Memory.insert]
    split
    · simp [Memory.getByte, Ne.symm hjk]
    · simp [Memory.getByte, ih]

theorem getByte_insert_self (k : Nat) (b : Byte) (m : Memory) (h : ∀ c ∈ m, c.1 ≠ k) :
    Memory.getByte k (Memory.insert k b m) = b := by
  induction m with
  | nil => simp [Memory.insert, Memory.getByte]
  | cons c rest ih =>
    obtain ⟨k', b'⟩ := c
    simp only [Memory.insert]
    split
    · simp [Memory.getByte]
    · have hk : k' ≠ k := h (k', b') (by simp)
      simpa [Memory.getByte, hk] using ih fun c hc => h c (by simp [hc])

theorem remove_key_ne (k : Nat) (m : Memory) : ∀ c ∈ Memory.remove k m, c.1 ≠ k := by
  intro c hc
  simpa [Memory.remove] using (List.mem_filter.mp hc).2

/-- A cell reads as what was last written to it. -/
@[simp] theorem getByte_setByte_self (k : Nat) (b : Byte) (m : Memory) :
    Memory.getByte k (Memory.setByte k b m) = b := by
  unfold Memory.setByte
  split
  · next h => rw [getByte_remove_self, h]
  · exact getByte_insert_self k b _ (remove_key_ne k m)

/-- A cell write leaves every other cell alone. -/
theorem getByte_setByte_other {j k : Nat} (hjk : j ≠ k) (b : Byte) (m : Memory) :
    Memory.getByte j (Memory.setByte k b m) = Memory.getByte j m := by
  unfold Memory.setByte
  split
  · exact getByte_remove_other hjk m
  · rw [getByte_insert_other hjk, getByte_remove_other hjk]

/-! ### One word -/

theorem word_bytes (v : Word) : (v.extractLsb' 8 8 ++ v.extractLsb' 0 8 : Word) = v := by
  apply BitVec.eq_of_getLsbD_eq
  intro i hi
  refine (BitVec.getLsbD_append (x := v.extractLsb' 8 8) (y := v.extractLsb' 0 8) (i := i)).trans ?_
  by_cases h : i < 8
  · simp [h]
  · simp [h, show i - 8 < 8 by omega, show 8 + (i - 8) = i by omega]

/-- A word reads as what was last written to it (20_memory.md R58). -/
@[simp] theorem get_set_self (a v : Word) (m : Memory) : Memory.get a (Memory.set a v m) = v := by
  unfold Memory.get Memory.set
  rw [getByte_setByte_other (by omega), getByte_setByte_self, getByte_setByte_self]
  exact word_bytes v

/-- A word write leaves every other word alone. -/
theorem get_set_other {a a' : Word} (h : a' ≠ a) (v : Word) (m : Memory) :
    Memory.get a' (Memory.set a v m) = Memory.get a' m := by
  have : a'.toNat ≠ a.toNat := fun e => h (BitVec.eq_of_toNat_eq e)
  unfold Memory.get Memory.set
  repeat rw [getByte_setByte_other (by omega)]

theorem get_set (a a' v : Word) (m : Memory) :
    Memory.get a' (Memory.set a v m) = if a' = a then v else Memory.get a' m := by
  split
  · next h => rw [h, get_set_self]
  · next h => exact get_set_other h v m

/-! ### The canonical form -/

theorem remove_wf (k : Nat) {m : Memory} (h : Memory.wf m) : Memory.wf (Memory.remove k m) :=
  ⟨h.1.filter _, fun c hc => h.2 c (List.mem_filter.mp hc).1⟩

theorem mem_insert {k : Nat} {b : Byte} {m : Memory} {c : Host.Cell} :
    c ∈ Memory.insert k b m ↔ c = (k, b) ∨ c ∈ m := by
  induction m with
  | nil => simp [Memory.insert]
  | cons d rest ih =>
    obtain ⟨k', b'⟩ := d
    simp only [Memory.insert]
    split
    · simp
    · simp [ih, or_left_comm]

theorem insert_wf {k : Nat} {b : Byte} {m : Memory} (hk : k < 131072) (hb : b ≠ Memory.unlisted)
    (hm : ∀ c ∈ m, c.1 ≠ k) (h : Memory.wf m) : Memory.wf (Memory.insert k b m) := by
  refine ⟨?_, fun c hc => ?_⟩
  · have hp := h.1
    clear h
    induction m with
    | nil => simp [Memory.insert]
    | cons d rest ih =>
      obtain ⟨k', b'⟩ := d
      have hd : k' ≠ k := hm (k', b') (by simp)
      obtain ⟨h1, h2⟩ := List.pairwise_cons.mp hp
      simp only [Memory.insert]
      split
      · next hlt =>
        refine List.pairwise_cons.mpr ⟨fun c hc => ?_, hp⟩
        rcases List.mem_cons.mp hc with rfl | hc
        · exact hlt
        · exact Nat.lt_trans hlt (h1 c hc)
      · next hge =>
        refine List.pairwise_cons.mpr ⟨fun c hc => ?_, ih (fun c hc => hm c (by simp [hc])) h2⟩
        rcases mem_insert.mp hc with rfl | hc
        · exact Nat.lt_of_le_of_ne (Nat.le_of_not_lt hge) hd
        · exact h1 c hc
  · rcases mem_insert.mp hc with rfl | hc
    · exact ⟨hk, hb⟩
    · exact h.2 c hc

theorem setByte_wf {k : Nat} (hk : k < 131072) (b : Byte) {m : Memory} (h : Memory.wf m) :
    Memory.wf (Memory.setByte k b m) := by
  unfold Memory.setByte
  split
  · exact remove_wf k h
  · next hb => exact insert_wf hk hb (remove_key_ne k m) (remove_wf k h)

/-- Every word write keeps the canonical form. -/
theorem set_wf (a v : Word) {m : Memory} (h : Memory.wf m) : Memory.wf (Memory.set a v m) := by
  have := a.isLt
  exact setByte_wf (by omega) _ (setByte_wf (by omega) _ h)

theorem nil_wf : Memory.wf [] := ⟨List.Pairwise.nil, fun _ h => by cases h⟩

/-- Memory nothing has been written to reads as zero everywhere (10_state.md R39). -/
theorem get_nil (a : Word) : Memory.get a [] = 0#16 := by
  simp [Memory.get, Memory.getByte, Memory.unlisted]

theorem getByte_of_lt_all {k : Nat} {m : Memory} (h : ∀ c ∈ m, k < c.1) : Memory.getByte k m = Memory.unlisted := by
  induction m with
  | nil => rfl
  | cons c rest ih =>
    obtain ⟨k', b⟩ := c
    have : k' ≠ k := Nat.ne_of_gt (h (k', b) (by simp))
    simpa [Memory.getByte, this] using ih fun c hc => h c (by simp [hc])

/-- Cell by cell, the form is canonical. -/
theorem eq_of_getByte_eq {m m' : Memory} (h : Memory.wf m) (h' : Memory.wf m')
    (e : ∀ k, Memory.getByte k m = Memory.getByte k m') : m = m' := by
  induction m generalizing m' with
  | nil =>
    cases m' with
    | nil => rfl
    | cons d _ =>
      have := e d.1
      exact absurd (by simpa [Memory.getByte] using this.symm) (h'.2 d (by simp)).2
  | cons c rest ih =>
    obtain ⟨k, b⟩ := c
    obtain ⟨h1, h2⟩ := List.pairwise_cons.mp h.1
    cases m' with
    | nil => exact absurd (by simpa [Memory.getByte] using e k) (h.2 (k, b) (by simp)).2
    | cons d rest' =>
      obtain ⟨k', b'⟩ := d
      obtain ⟨h1', h2'⟩ := List.pairwise_cons.mp h'.1
      have hk : k = k' := by
        rcases Nat.lt_trichotomy k k' with hlt | heq | hgt
        · have := e k
          rw [getByte_of_lt_all (m := (k', b') :: rest') fun c hc => by
            rcases List.mem_cons.mp hc with rfl | hc
            · exact hlt
            · exact Nat.lt_trans hlt (h1' c hc)] at this
          exact absurd (by simpa [Memory.getByte] using this) (h.2 (k, b) (by simp)).2
        · exact heq
        · have := e k'
          rw [getByte_of_lt_all (m := (k, b) :: rest) fun c hc => by
            rcases List.mem_cons.mp hc with rfl | hc
            · exact hgt
            · exact Nat.lt_trans hgt (h1 c hc)] at this
          exact absurd (by simpa [Memory.getByte] using this.symm) (h'.2 (k', b') (by simp)).2
      subst hk
      have hb : b = b' := by simpa [Memory.getByte] using e k
      subst hb
      rw [ih ⟨h2, fun c hc => h.2 c (by simp [hc])⟩ ⟨h2', fun c hc => h'.2 c (by simp [hc])⟩]
      intro j
      by_cases hj : k = j
      · subst hj
        rw [getByte_of_lt_all fun c hc => h1 c hc, getByte_of_lt_all fun c hc => h1' c hc]
      · simpa [Memory.getByte, hj] using e j

end Sys2Proof.Machine
end

