-- ==== Sys2Proof/Laws/State.lean ====
section
/-! SUPPORT. One lemma per field per update of State, each true by rfl, so that no later proof unfolds a record
update; and what the register setters do to each entry. -/

namespace Sys2Proof.Machine

@[simp] theorem setPc_regs (v : Word) (s : State) : (State.setPc v s).regs = s.regs.set 8 v := rfl
@[simp] theorem setPc_mem (v : Word) (s : State) : (State.setPc v s).mem = s.mem := rfl
@[simp] theorem setPc_run (v : Word) (s : State) : (State.setPc v s).run = s.run := rfl
@[simp] theorem setPc_haltReason (v : Word) (s : State) : (State.setPc v s).haltReason = s.haltReason := rfl
@[simp] theorem setPc_fault (v : Word) (s : State) : (State.setPc v s).fault = s.fault := rfl
@[simp] theorem setPc_config (v : Word) (s : State) : (State.setPc v s).config = s.config := rfl
@[simp] theorem setPc_kbDraws (v : Word) (s : State) : (State.setPc v s).kbDraws = s.kbDraws := rfl
@[simp] theorem setPc_kbPolls (v : Word) (s : State) : (State.setPc v s).kbPolls = s.kbPolls := rfl

@[simp] theorem setCond_regs (v : Word) (s : State) : (State.setCond v s).regs = s.regs.set 9 v := rfl
@[simp] theorem setCond_mem (v : Word) (s : State) : (State.setCond v s).mem = s.mem := rfl
@[simp] theorem setCond_run (v : Word) (s : State) : (State.setCond v s).run = s.run := rfl
@[simp] theorem setCond_haltReason (v : Word) (s : State) : (State.setCond v s).haltReason = s.haltReason := rfl
@[simp] theorem setCond_fault (v : Word) (s : State) : (State.setCond v s).fault = s.fault := rfl
@[simp] theorem setCond_config (v : Word) (s : State) : (State.setCond v s).config = s.config := rfl
@[simp] theorem setCond_kbDraws (v : Word) (s : State) : (State.setCond v s).kbDraws = s.kbDraws := rfl
@[simp] theorem setCond_kbPolls (v : Word) (s : State) : (State.setCond v s).kbPolls = s.kbPolls := rfl

@[simp] theorem setGpr_mem (r : RegField) (v : Word) (s : State) : (State.setGpr r v s).mem = s.mem := rfl
@[simp] theorem setGpr_run (r : RegField) (v : Word) (s : State) : (State.setGpr r v s).run = s.run := rfl
@[simp] theorem setGpr_haltReason (r : RegField) (v : Word) (s : State) : (State.setGpr r v s).haltReason = s.haltReason := rfl
@[simp] theorem setGpr_fault (r : RegField) (v : Word) (s : State) : (State.setGpr r v s).fault = s.fault := rfl
@[simp] theorem setGpr_config (r : RegField) (v : Word) (s : State) : (State.setGpr r v s).config = s.config := rfl
@[simp] theorem setGpr_kbDraws (r : RegField) (v : Word) (s : State) : (State.setGpr r v s).kbDraws = s.kbDraws := rfl
@[simp] theorem setGpr_kbPolls (r : RegField) (v : Word) (s : State) : (State.setGpr r v s).kbPolls = s.kbPolls := rfl

@[simp] theorem raiseFault_regs (f : FaultIndication) (s : State) : (raiseFault f s).regs = s.regs := rfl
@[simp] theorem raiseFault_mem (f : FaultIndication) (s : State) : (raiseFault f s).mem = s.mem := rfl
@[simp] theorem raiseFault_run (f : FaultIndication) (s : State) : (raiseFault f s).run = s.run := rfl
@[simp] theorem raiseFault_haltReason (f : FaultIndication) (s : State) : (raiseFault f s).haltReason = s.haltReason := rfl
@[simp] theorem raiseFault_fault (f : FaultIndication) (s : State) : (raiseFault f s).fault = some f := rfl
@[simp] theorem raiseFault_config (f : FaultIndication) (s : State) : (raiseFault f s).config = s.config := rfl
@[simp] theorem raiseFault_kbDraws (f : FaultIndication) (s : State) : (raiseFault f s).kbDraws = s.kbDraws := rfl
@[simp] theorem raiseFault_kbPolls (f : FaultIndication) (s : State) : (raiseFault f s).kbPolls = s.kbPolls := rfl

@[simp] theorem memWrite_regs (a v : Word) (s : State) : (memWrite a v s).regs = s.regs := rfl
@[simp] theorem memWrite_mem (a v : Word) (s : State) : (memWrite a v s).mem = Memory.set a v s.mem := rfl
@[simp] theorem memWrite_run (a v : Word) (s : State) : (memWrite a v s).run = s.run := rfl
@[simp] theorem memWrite_haltReason (a v : Word) (s : State) : (memWrite a v s).haltReason = s.haltReason := rfl
@[simp] theorem memWrite_fault (a v : Word) (s : State) : (memWrite a v s).fault = s.fault := rfl
@[simp] theorem memWrite_config (a v : Word) (s : State) : (memWrite a v s).config = s.config := rfl
@[simp] theorem memWrite_kbDraws (a v : Word) (s : State) : (memWrite a v s).kbDraws = s.kbDraws := rfl
@[simp] theorem memWrite_kbPolls (a v : Word) (s : State) : (memWrite a v s).kbPolls = s.kbPolls := rfl

@[simp] theorem takeDraw_regs (s : State) : (State.takeDraw s).regs = s.regs := rfl
@[simp] theorem takeDraw_mem (s : State) : (State.takeDraw s).mem = s.mem := rfl
@[simp] theorem takeDraw_run (s : State) : (State.takeDraw s).run = s.run := rfl
@[simp] theorem takeDraw_haltReason (s : State) : (State.takeDraw s).haltReason = s.haltReason := rfl
@[simp] theorem takeDraw_fault (s : State) : (State.takeDraw s).fault = s.fault := rfl
@[simp] theorem takeDraw_config (s : State) : (State.takeDraw s).config = s.config := rfl
@[simp] theorem takeDraw_kbDraws (s : State) : (State.takeDraw s).kbDraws = s.kbDraws.tail := rfl
@[simp] theorem takeDraw_kbPolls (s : State) : (State.takeDraw s).kbPolls = s.kbPolls + 1 := rfl

@[simp] theorem halt_regs (r : HaltReason) (s : State) : (halt r s).regs = s.regs := rfl
@[simp] theorem halt_mem (r : HaltReason) (s : State) : (halt r s).mem = s.mem := rfl
@[simp] theorem halt_run (r : HaltReason) (s : State) : (halt r s).run = .halted := rfl
@[simp] theorem halt_haltReason (r : HaltReason) (s : State) : (halt r s).haltReason = some r := rfl
@[simp] theorem halt_fault (r : HaltReason) (s : State) : (halt r s).fault = s.fault := rfl
@[simp] theorem halt_config (r : HaltReason) (s : State) : (halt r s).config = s.config := rfl
@[simp] theorem halt_kbDraws (r : HaltReason) (s : State) : (halt r s).kbDraws = s.kbDraws := rfl
@[simp] theorem halt_kbPolls (r : HaltReason) (s : State) : (halt r s).kbPolls = s.kbPolls := rfl

/-- A 3-bit field is a register-file index (10_state.md R22, R23). -/
theorem gprIndex_lt (r : RegField) : r.toNat < 10 := Nat.lt_trans r.isLt (by decide)

@[simp] theorem setPc_pc (v : Word) (s : State) : (State.setPc v s).pc = v := by simp [State.pc]
@[simp] theorem setPc_cond (v : Word) (s : State) : (State.setPc v s).cond = s.cond := by simp [State.cond]
@[simp] theorem setPc_gpr (v : Word) (s : State) (r : RegField) : (State.setPc v s).gpr r = s.gpr r := by
  have := r.isLt
  simp only [State.gpr, setPc_regs]
  rw [Vector.getElem_set_ne _ _ (by omega)]
@[simp] theorem setCond_pc (v : Word) (s : State) : (State.setCond v s).pc = s.pc := by simp [State.pc]
@[simp] theorem setCond_cond (v : Word) (s : State) : (State.setCond v s).cond = v := by simp [State.cond]
@[simp] theorem setCond_gpr (v : Word) (s : State) (r : RegField) : (State.setCond v s).gpr r = s.gpr r := by
  have := r.isLt
  simp only [State.gpr, setCond_regs]
  rw [Vector.getElem_set_ne _ _ (by omega)]
theorem setGpr_regs (r : RegField) (v : Word) (s : State) :
    (State.setGpr r v s).regs = s.regs.set r.toNat v (gprIndex_lt r) := rfl
@[simp] theorem setGpr_pc (r : RegField) (v : Word) (s : State) : (State.setGpr r v s).pc = s.pc := by
  have := r.isLt
  simp only [State.pc, setGpr_regs]
  rw [Vector.getElem_set_ne _ _ (by omega)]
@[simp] theorem setGpr_cond (r : RegField) (v : Word) (s : State) : (State.setGpr r v s).cond = s.cond := by
  have := r.isLt
  simp only [State.cond, setGpr_regs]
  rw [Vector.getElem_set_ne _ _ (by omega)]
@[simp] theorem setGpr_gpr_self (r : RegField) (v : Word) (s : State) : (State.setGpr r v s).gpr r = v := by
  simp [State.gpr, setGpr_regs]
theorem setGpr_gpr_other {r r' : RegField} (h : r ≠ r') (v : Word) (s : State) :
    (State.setGpr r v s).gpr r' = s.gpr r' := by
  have : r.toNat ≠ r'.toNat := fun e => h (BitVec.eq_of_toNat_eq e)
  simp [State.gpr, setGpr_regs, this]

/-- The registers that are no piece of the updated field read as before. -/
@[simp] theorem memWrite_pc (a v : Word) (s : State) : (memWrite a v s).pc = s.pc := rfl
@[simp] theorem memWrite_cond (a v : Word) (s : State) : (memWrite a v s).cond = s.cond := rfl
@[simp] theorem memWrite_gpr (a v : Word) (s : State) (r : RegField) : (memWrite a v s).gpr r = s.gpr r := rfl
@[simp] theorem halt_pc (r : HaltReason) (s : State) : (halt r s).pc = s.pc := rfl
@[simp] theorem halt_cond (r : HaltReason) (s : State) : (halt r s).cond = s.cond := rfl
@[simp] theorem halt_gpr (r : HaltReason) (s : State) (q : RegField) : (halt r s).gpr q = s.gpr q := rfl

end Sys2Proof.Machine
end

