-- ==== Sys2Proof/Laws/Ops.lean ====
section
/-! SUPPORT. One lemma per shared operation that says everything it can do; callers cite these and do not unfold the
operation. -/

namespace Sys2Proof.Machine

/-! ### register_file (10_state.md R21, R22) -/

theorem read_lt {i : Nat} (h : i < 10) (rf : RegFile) : RegFile.read i rf = .ok rf[i] := by
  simp [RegFile.read, h]

theorem write_lt {i : Nat} (h : i < 10) (v : Word) (rf : RegFile) : RegFile.write i v rf = .ok (rf.set i v) := by
  simp [RegFile.write, h]

/-- A read at an index below 10 gives the entry. -/
theorem withReg_lt {i : Nat} (h : i < 10) (s : State) (k : Word → Result) : withReg i s k = k s.regs[i] := by
  simp [withReg, read_lt h]

/-- A write at an index below 10 replaces the entry. -/
theorem writingReg_lt {i : Nat} (h : i < 10) (v : Word) (s : State) (k : State → Result) :
    writingReg i v s k = k { s with regs := s.regs.set i v } := by
  simp [writingReg, write_lt h]

theorem withReg_gpr (r : RegField) (s : State) (k : Word → Result) : withReg r.toNat s k = k (s.gpr r) :=
  withReg_lt (gprIndex_lt r) s k

theorem withReg_pc (s : State) (k : Word → Result) : withReg pcIndex s k = k s.pc :=
  withReg_lt (by decide : 8 < 10) s k

theorem writingReg_gpr (r : RegField) (v : Word) (s : State) (k : State → Result) :
    writingReg r.toNat v s k = k (s.setGpr r v) :=
  writingReg_lt (gprIndex_lt r) v s k

theorem writingReg_pc (v : Word) (s : State) (k : State → Result) : writingReg pcIndex v s k = k (s.setPc v) :=
  writingReg_lt (by decide : 8 < 10) v s k

theorem writingReg_cond (v : Word) (s : State) (k : State → Result) : writingReg condIndex v s k = k (s.setCond v) :=
  writingReg_lt (by decide : 9 < 10) v s k

/-! ### Flags and write-back (40_cycle.md R110, R116) -/

/-- The write-back writes DR and then COND, and nothing else. -/
theorem writeBack_eq (dr : RegField) (v : Word) (s : State) :
    writeBack dr v s = .next ((s.setGpr dr v).setCond (condCode s.config v)) := by
  simp only [writeBack, updateFlags, writingReg_gpr, withReg_gpr, writingReg_cond, setGpr_gpr_self, setGpr_config]

/-- What the second operand evaluates to. -/
def operand2Value (o : Operand2) (s : State) : Word :=
  match o with
  | .reg sr2 => s.gpr sr2
  | .imm v => v

theorem withOperand2_eq (o : Operand2) (s : State) (k : Word → Result) :
    withOperand2 o s k = k (operand2Value o s) := by
  cases o with
  | reg sr2 => exact withReg_gpr sr2 s k
  | imm v => rfl

/-- ADD and AND write the ALU's result of the old values. -/
theorem operate_eq (op : AluOp) (dr sr1 : RegField) (o : Operand2) (s : State) :
    operate op dr sr1 o s = writeBack dr (alu op (s.gpr sr1) (operand2Value o s)) s := by
  simp only [operate, withSource, withReg_gpr, withOperand2_eq]

/-! ### The keyboard's answers (20_memory.md R57) -/

/-- Taking one answer moves every later one up by one place. -/
theorem takeDraw_draw (s : State) (n : Nat) : s.takeDraw.draw n = s.draw (n + 1) := by
  cases h : s.kbDraws with
  | nil => simp [State.draw, h, Nat.add_assoc, Nat.add_comm 1 n]
  | cons d ds => simp [State.draw, h, Nat.add_assoc, Nat.add_comm 1 n]

theorem draw_congr {s t : State} (h1 : t.kbDraws = s.kbDraws) (h2 : t.kbPolls = s.kbPolls) (n : Nat) :
    t.draw n = s.draw n := by
  simp [State.draw, h1, h2]

/-! ### Reading memory (20_memory.md R55) -/

theorem pollKeyboard_input {s : State} {b : Byte} (h : s.draw 0 = .input b) :
    pollKeyboard s =
      memWrite s.config.kbdrAddr (zextByte b) (memWrite s.config.kbsrAddr Config.kbsrReady s.takeDraw) := by
  simp [pollKeyboard, h]

theorem pollKeyboard_noInput {s : State} (h : s.draw 0 = .noInput) :
    pollKeyboard s = memWrite s.config.kbsrAddr Config.kbsrEmpty s.takeDraw := by
  simp [pollKeyboard, h]

theorem pollIfKbsr_kbsr (s : State) : pollIfKbsr s.config.kbsrAddr s = pollKeyboard s := if_pos rfl

theorem pollIfKbsr_other {a : Word} {s : State} (h : a ≠ s.config.kbsrAddr) : pollIfKbsr a s = s := if_neg h

/-- A poll touches memory and the keyboard's answers only. -/
theorem pollKeyboard_frame (s : State) :
    (pollKeyboard s).regs = s.regs ∧ (pollKeyboard s).run = s.run ∧ (pollKeyboard s).haltReason = s.haltReason ∧
      (pollKeyboard s).fault = s.fault ∧ (pollKeyboard s).config = s.config := by
  cases h : s.draw 0 with
  | noInput => simp [pollKeyboard_noInput h]
  | input b => simp [pollKeyboard_input h]

/-- A memory read touches memory and the keyboard's answers only. -/
theorem pollIfKbsr_frame (a : Word) (s : State) :
    (pollIfKbsr a s).regs = s.regs ∧ (pollIfKbsr a s).run = s.run ∧ (pollIfKbsr a s).haltReason = s.haltReason ∧
      (pollIfKbsr a s).fault = s.fault ∧ (pollIfKbsr a s).config = s.config := by
  unfold pollIfKbsr
  split
  · exact pollKeyboard_frame s
  · simp

/-- A memory read keeps the canonical form. -/
theorem pollIfKbsr_wf (a : Word) {s : State} (h : Memory.wf s.mem) : Memory.wf (pollIfKbsr a s).mem := by
  unfold pollIfKbsr
  split
  · cases hd : s.draw 0 with
    | noInput => rw [pollKeyboard_noInput hd, memWrite_mem, takeDraw_mem]; exact set_wf _ _ h
    | input b => rw [pollKeyboard_input hd, memWrite_mem, memWrite_mem, takeDraw_mem]; exact set_wf _ _ (set_wf _ _ h)
  · exact h

theorem memWrite_wf (a v : Word) {s : State} (h : Memory.wf s.mem) : Memory.wf (memWrite a v s).mem := set_wf a v h

/-! ### Fetch and the step's guard (40_cycle.md R101 to R103) -/

/-- Fetch reads the word at PC, then writes PC, then goes on. -/
theorem fetching_eq (s : State) (k : Word → State → Result) :
    fetching s k = k s.fetched ((pollIfKbsr s.pc s).setPc (nextPc s.pc)) := by
  simp only [fetching, withReg_pc, memRead, writingReg_pc, State.fetched]

/-- The guard lets a live state through. -/
theorem whenRunning_live {s : State} (h : s.Live) (k : State → Result) : whenRunning s k = k s := by
  simp [whenRunning, h.1, h.2]

/-- Only a live state has a next state: the guard's inversion. -/
theorem live_of_whenRunning_next {s t : State} {k : State → Result} (h : whenRunning s k = .next t) :
    s.Live ∧ k s = .next t := by
  unfold whenRunning at h
  split at h
  · cases h
  · cases h
  · next hf hr => exact ⟨⟨hr, hf⟩, h⟩

end Sys2Proof.Machine
end

