-- ==== Sys2Proof/Laws/Exec.lean ====
section
/-! SUPPORT. Everything the execute phase of an instruction can do, said once: it halts, or it reads at most one memory
word and writes back to DR. -/

namespace Sys2Proof.Machine

/-- The address an instruction reads as data, if any (20_memory.md R61). -/
def dataAddress (i : Instr) (s : State) : Option Word :=
  match i with
  | .ld _ off => some (effectiveAddress s.pc off)
  | _ => none

/-- The state after an instruction's data read, if it has one. -/
def afterDataRead (i : Instr) (s : State) : State :=
  match dataAddress i s with
  | some a => pollIfKbsr a s
  | none => s

/-- LD writes back the word its read gives, in the state the read leaves. -/
theorem execLd_eq (dr : RegField) (off : Word) (s : State) :
    execLd dr off s = writeBack dr (memRead (effectiveAddress s.pc off) s).1 (pollIfKbsr (effectiveAddress s.pc off) s) := by
  simp only [execLd, withPcRelative, withReg_pc]
  rfl

/-- An instruction with no DR halts; one with a DR writes some value back, after its data read. -/
theorem exec_cases (i : Instr) (s : State) :
    (destOf i = none ∧ exec i s = .next (halt .unimplementedOpcode s)) ∨
      ∃ dr v, destOf i = some dr ∧ exec i s = writeBack dr v (afterDataRead i s) := by
  cases i with
  | addReg dr sr1 sr2 => exact .inr ⟨dr, _, rfl, operate_eq ..⟩
  | addImm dr sr1 imm => exact .inr ⟨dr, _, rfl, operate_eq ..⟩
  | andReg dr sr1 sr2 => exact .inr ⟨dr, _, rfl, operate_eq ..⟩
  | andImm dr sr1 imm => exact .inr ⟨dr, _, rfl, operate_eq ..⟩
  | ld dr off => exact .inr ⟨dr, (memRead (effectiveAddress s.pc off) s).1, rfl, execLd_eq dr off s⟩
  | unimpl0000 => exact .inl ⟨rfl, rfl⟩
  | unimpl0011 => exact .inl ⟨rfl, rfl⟩
  | unimpl0100 => exact .inl ⟨rfl, rfl⟩
  | unimpl0110 => exact .inl ⟨rfl, rfl⟩
  | unimpl0111 => exact .inl ⟨rfl, rfl⟩
  | unimpl1000 => exact .inl ⟨rfl, rfl⟩
  | unimpl1001 => exact .inl ⟨rfl, rfl⟩
  | unimpl1010 => exact .inl ⟨rfl, rfl⟩
  | unimpl1011 => exact .inl ⟨rfl, rfl⟩
  | unimpl1100 => exact .inl ⟨rfl, rfl⟩
  | unimpl1101 => exact .inl ⟨rfl, rfl⟩
  | unimpl1110 => exact .inl ⟨rfl, rfl⟩
  | unimpl1111 => exact .inl ⟨rfl, rfl⟩

/-- The data read of an instruction touches memory and the keyboard's answers only. -/
theorem afterDataRead_frame (i : Instr) (s : State) :
    (afterDataRead i s).regs = s.regs ∧ (afterDataRead i s).run = s.run ∧
      (afterDataRead i s).haltReason = s.haltReason ∧ (afterDataRead i s).fault = s.fault ∧
      (afterDataRead i s).config = s.config := by
  unfold afterDataRead
  split
  · exact pollIfKbsr_frame _ s
  · simp

theorem afterDataRead_wf (i : Instr) {s : State} (h : Memory.wf s.mem) : Memory.wf (afterDataRead i s).mem := by
  unfold afterDataRead
  split
  · exact pollIfKbsr_wf _ h
  · exact h

end Sys2Proof.Machine
end

