-- ==== Sys2Proof/Laws/PerInstr.lean ====
section
/-! SUPPORT. The per-instruction family EncodesRow: the encoder's word of an instruction belongs to that instruction's
row of spec/opcode_table.json. -/

namespace Sys2Proof.Laws.EncodesRow

/-- The encoded word lies under its row's mask and pattern. -/
def Statement (i : Instr) : Prop := (i.row).covers (encode i) = true

/-- Two words with one opcode agree on bits 12 and up. -/
theorem bit_eq_of_opcode {w p : Word} (h : w.toNat / 4096 = p.toNat / 4096) {i : Nat} (hi : 12 ≤ i) :
    w.getLsbD i = p.getLsbD i := by
  have e : w.toNat >>> 12 = p.toNat >>> 12 := by simpa [Nat.shiftRight_eq_div_pow] using h
  have := congrArg (fun n => n.testBit (i - 12)) e
  simpa [Nat.testBit_shiftRight, hi, BitVec.getLsbD] using this

/-- A row whose mask is the opcode covers every word with the pattern's opcode. -/
theorem covers_opcode {w p : Word} {m f : String} (h : w.toNat / 4096 = p.toNat / 4096)
    (hp : p &&& 0xF000#16 = p) : OpcodeRow.covers ⟨m, f, 0xF000#16, p⟩ w = true := by
  rw [OpcodeRow.covers, beq_iff_eq, ← hp]
  apply BitVec.eq_of_getLsbD_eq
  intro i _
  simp only [BitVec.getLsbD_and]
  by_cases h12 : 12 ≤ i
  · rw [bit_eq_of_opcode h h12]
  · have : (0xF000#16).getLsbD i = false := by
      have : i < 12 := by omega
      interval_cases i <;> rfl
    rw [this]; simp

/-- A row whose mask is opcode and mode bit covers every word with the pattern's opcode and mode. -/
theorem covers_mode {w p : Word} {m f : String} (h : w.toNat / 4096 = p.toNat / 4096)
    (h' : w.toNat / 32 % 2 = p.toNat / 32 % 2) (hp : p &&& 0xF020#16 = p) :
    OpcodeRow.covers ⟨m, f, 0xF020#16, p⟩ w = true := by
  rw [OpcodeRow.covers, beq_iff_eq, ← hp]
  apply BitVec.eq_of_getLsbD_eq
  intro i _
  simp only [BitVec.getLsbD_and]
  by_cases h5 : i = 5
  · subst h5
    simp [BitVec.getLsbD, Nat.testBit, Nat.shiftRight_eq_div_pow, h']
  · by_cases h12 : 12 ≤ i
    · rw [bit_eq_of_opcode h h12]
    · have : (0xF020#16).getLsbD i = false := by
        have : i < 12 := by omega
        interval_cases i <;> first | rfl | exact absurd rfl h5
      rw [this]; simp

theorem addReg (dr sr1 sr2 : RegField) : Statement (.addReg dr sr1 sr2) := by
  have h1 := dr.isLt; have h2 := sr1.isLt; have h3 := sr2.isLt
  apply covers_mode <;> first | decide | (simp only [encode, packOPR_toNat, BitVec.toNat_ofNat]; omega)

theorem addImm (dr sr1 : RegField) (imm : Word) : Statement (.addImm dr sr1 imm) := by
  have h1 := dr.isLt; have h2 := sr1.isLt; have h3 := (imm.setWidth 5).isLt
  apply covers_mode <;> first | decide | (simp only [encode, packOPI_toNat, BitVec.toNat_ofNat]; omega)

theorem andReg (dr sr1 sr2 : RegField) : Statement (.andReg dr sr1 sr2) := by
  have h1 := dr.isLt; have h2 := sr1.isLt; have h3 := sr2.isLt
  apply covers_mode <;> first | decide | (simp only [encode, packOPR_toNat, BitVec.toNat_ofNat]; omega)

theorem andImm (dr sr1 : RegField) (imm : Word) : Statement (.andImm dr sr1 imm) := by
  have h1 := dr.isLt; have h2 := sr1.isLt; have h3 := (imm.setWidth 5).isLt
  apply covers_mode <;> first | decide | (simp only [encode, packOPI_toNat, BitVec.toNat_ofNat]; omega)

theorem ld (dr : RegField) (off : Word) : Statement (.ld dr off) := by
  have h1 := dr.isLt; have h2 := (off.setWidth 9).isLt
  apply covers_opcode <;> first | decide | (simp only [encode, packPCR_toNat, BitVec.toNat_ofNat]; omega)

theorem unimpl0000 : Statement .unimpl0000 := by unfold Statement; decide

theorem unimpl0011 : Statement .unimpl0011 := by unfold Statement; decide

theorem unimpl0100 : Statement .unimpl0100 := by unfold Statement; decide

theorem unimpl0110 : Statement .unimpl0110 := by unfold Statement; decide

theorem unimpl0111 : Statement .unimpl0111 := by unfold Statement; decide

theorem unimpl1000 : Statement .unimpl1000 := by unfold Statement; decide

theorem unimpl1001 : Statement .unimpl1001 := by unfold Statement; decide

theorem unimpl1010 : Statement .unimpl1010 := by unfold Statement; decide

theorem unimpl1011 : Statement .unimpl1011 := by unfold Statement; decide

theorem unimpl1100 : Statement .unimpl1100 := by unfold Statement; decide

theorem unimpl1101 : Statement .unimpl1101 := by unfold Statement; decide

theorem unimpl1110 : Statement .unimpl1110 := by unfold Statement; decide

theorem unimpl1111 : Statement .unimpl1111 := by unfold Statement; decide

end Sys2Proof.Laws.EncodesRow
end

