-- ==== Sys2Proof/Tests/Slice0.lean ====
section
/-! SUPPORT. The model's own tests. Expected values come from spec/95_test_vectors.md (the vector's id stands in the
comment) or from the encodings of 30_encoding.md; the witnesses show that each statement's hypotheses can be met. -/

namespace Sys2Proof.Machine.Tests

/-- A machine at reset but for its PC, some memory words, some registers and the keyboard's answers. -/
def machine (pc : Word) (words : List (Word × Word)) (regs : List (RegField × Word)) (kb : List KbDraw) : State :=
  let s := words.foldl (fun s p => memWrite p.1 p.2 s) { State.reset with kbDraws := kb }
  (regs.foldl (fun s p => s.setGpr p.1 p.2) s).setPc pc

/-- One instruction at 0x3000. -/
def one (w : Word) (regs : List (RegField × Word)) : State := machine 0x3000#16 [(0x3000#16, w)] regs []

/-- The state after one step. -/
def after (s : State) : State := (nextOf (step s)).getD s

/-- Where a step answers a next state, `after` is that state. -/
theorem step_after {s : State} (h : (nextOf (step s)).isSome = true) : step s = .next (after s) := by
  unfold after
  cases hs : step s with
  | next t => rfl
  | fault f => rw [hs] at h; cases h
  | refused r => rw [hs] at h; cases h

/-- Likewise for a run of one step. -/
theorem run_after {s : State} (h : (nextOf (step s)).isSome = true) :
    Host.Core.run Sys2Proof.core 1 s = .next (after s) := by
  have hs : Sys2Proof.core.step s = .next (after s) := step_after h
  simp only [Host.Core.run, hs]

/-- R`r`, COND and PC after one step. -/
def seen (s : State) (r : RegField) : Option (Word × Word × Word) :=
  (nextOf (step s)).map fun t => (t.gpr r, t.cond, t.pc)

/-! ### WellFormed refuses what no encoding gives (30_encoding.md R84) -/

theorem test_wf_refuses_imm_16 : (Instr.addImm 0 0 16#16).wf = false := by decide
theorem test_wf_refuses_imm_minus_17 : (Instr.andImm 0 0 0xFFEF#16).wf = false := by decide
theorem test_wf_refuses_off_256 : (Instr.ld 0 256#16).wf = false := by decide
theorem test_wf_refuses_off_minus_257 : (Instr.ld 0 0xFEFF#16).wf = false := by decide
theorem test_wf_accepts_the_ends :
    (Instr.addImm 7 7 15#16).wf ∧ (Instr.andImm 0 0 0xFFF0#16).wf ∧ (Instr.ld 7 255#16).wf ∧
      (Instr.ld 0 0xFF00#16).wf := by decide

/-! ### One word written out for every constructor (30_encoding.md R82, R87, R92) -/

theorem test_decode_addReg : decode 0b0001_011_001_0_00_010#16 = .addReg 3 1 2 := by decide
theorem test_decode_addImm : decode 0b0001_010_001_1_10000#16 = .addImm 2 1 0xFFF0#16 := by decide
theorem test_decode_andReg : decode 0b0101_110_101_0_10_111#16 = .andReg 6 5 7 := by decide
theorem test_decode_andImm : decode 0b0101_000_001_1_01111#16 = .andImm 0 1 0x000F#16 := by decide
theorem test_decode_ld : decode 0b0010_011_111111110#16 = .ld 3 0xFFFE#16 := by decide
theorem test_decode_unimpl0000 : decode 0b0000_111111111111#16 = .unimpl0000 := by decide
theorem test_decode_unimpl0011 : decode 0b0011_000000000000#16 = .unimpl0011 := by decide
theorem test_decode_unimpl0100 : decode 0b0100_000000000000#16 = .unimpl0100 := by decide
theorem test_decode_unimpl0110 : decode 0b0110_000000000000#16 = .unimpl0110 := by decide
theorem test_decode_unimpl0111 : decode 0b0111_000000000000#16 = .unimpl0111 := by decide
theorem test_decode_unimpl1000 : decode 0b1000_000000000000#16 = .unimpl1000 := by decide
theorem test_decode_unimpl1001 : decode 0b1001_000000000000#16 = .unimpl1001 := by decide
theorem test_decode_unimpl1010 : decode 0b1010_000000000000#16 = .unimpl1010 := by decide
theorem test_decode_unimpl1011 : decode 0b1011_000000000000#16 = .unimpl1011 := by decide
theorem test_decode_unimpl1100 : decode 0b1100_000000000000#16 = .unimpl1100 := by decide
theorem test_decode_unimpl1101 : decode 0b1101_111111111111#16 = .unimpl1101 := by decide
theorem test_decode_unimpl1110 : decode 0b1110_000000000000#16 = .unimpl1110 := by decide
theorem test_decode_unimpl1111 : decode 0b1111_000000100101#16 = .unimpl1111 := by decide

/-- R92: the examples' words, from the encoder. -/
theorem test_encode_examples :
    encode (.addReg 0 1 2) = 0x1042#16 ∧ encode (.addImm 0 0 0xFFFF#16) = 0x103F#16 ∧
      encode (.andReg 0 1 2) = 0x5042#16 ∧ encode (.andImm 0 0 0#16) = 0x5020#16 ∧
      encode (.ld 0 2#16) = 0x2002#16 := by decide

theorem test_decodeTableWord :
    decodeTableWord 16 0x1042 = some (.addReg 0 1 2) ∧ decodeTableWord 16 0x10000 = none ∧
      decodeTableWord 32 0x1042 = none := by decide

/-! ### Sign extension, registers, flags, memory -/

/-- L1-1, L1-2, L1-3, SX-2, SX-3, SX-7, SX-8. -/
theorem test_sext :
    sext 5 0x1F#16 = 0xFFFF#16 ∧ sext 5 0x0F#16 = 0x000F#16 ∧ sext 5 0x00#16 = 0x0000#16 ∧
      sext 5 0x3F#16 = 0xFFFF#16 ∧ sext 9 0x100#16 = 0xFF00#16 ∧ sext 1 1#16 = 0xFFFF#16 ∧
      sext 16 0x8000#16 = 0x8000#16 := by decide

/-- RF-3, RF-4: out of range, and the machine is stopped. -/
theorem test_range_fault :
    (nextOf (withReg 10 State.reset fun _ => .next State.reset)).map State.fault =
        some (some (.registerIndexOutOfRange 10)) ∧
      (nextOf (writingReg 15 1#16 State.reset .next)).map State.regs = some State.reset.regs := by decide

/-- CF-1 to CF-5. -/
theorem test_condCode :
    condCode Config.spec 0x0000#16 = 2#16 ∧ condCode Config.spec 0x0001#16 = 1#16 ∧
      condCode Config.spec 0x7FFF#16 = 1#16 ∧ condCode Config.spec 0x8000#16 = 4#16 ∧
      condCode Config.spec 0xFFFF#16 = 4#16 := by decide

/-- Writing the value memory reads as unlisted removes the cells (10_state.md R39). -/
theorem test_memory_is_canonical :
    Memory.set 5#16 0#16 (Memory.set 5#16 0x1234#16 []) = [] ∧
      Memory.set 5#16 0x12#16 [] = [(11, 0x12#8)] ∧
      Memory.get 0xFFFF#16 (Memory.set 0xFFFF#16 0xBEEF#16 []) = 0xBEEF#16 := by decide

/-! ### One step -/

/-- AD-1: signed overflow wraps to a negative value. -/
theorem test_addReg_overflow :
    seen (one 0x1642#16 [(1, 0x7FFF#16), (2, 1#16)]) 3 = some (0x8000#16, 4#16, 0x3001#16) := by decide
/-- AD-4: bits 4..3 are ignored. -/
theorem test_addReg_unused_bits :
    seen (one 0x105A#16 [(1, 1#16), (2, 2#16)]) 0 = some (3#16, 1#16, 0x3001#16) := by decide
/-- AD-5: the smallest immediate. -/
theorem test_addImm_minus_16 : seen (one 0x1030#16 [(0, 0x10#16)]) 0 = some (0#16, 2#16, 0x3001#16) := by decide
/-- AD-6: the largest immediate, another DR. -/
theorem test_addImm_15 : seen (one 0x146F#16 [(1, 0x7FFF#16)]) 2 = some (0x800E#16, 4#16, 0x3001#16) := by decide
/-- AN-6: DR, SR1 and SR2 one register. -/
theorem test_andReg_same : seen (one 0x56C3#16 [(3, 0xABCD#16)]) 3 = some (0xABCD#16, 4#16, 0x3001#16) := by decide
/-- L1-10. -/
theorem test_andReg : seen (one 0x5042#16 [(1, 1#16), (2, 3#16)]) 0 = some (1#16, 1#16, 0x3001#16) := by decide
/-- AN-3: a negative immediate keeps the high bits. -/
theorem test_andImm_minus_16 : seen (one 0x5670#16 [(1, 0x1234#16)]) 3 = some (0x1230#16, 1#16, 0x3001#16) := by
  decide
/-- AN-7: a positive immediate clears them. -/
theorem test_andImm_15 : seen (one 0x506F#16 [(1, 0xFFFF#16)]) 0 = some (0xF#16, 1#16, 0x3001#16) := by decide
/-- LD-4: PC and the address wrap. -/
theorem test_ld_wraps :
    seen (machine 0xFFFF#16 [(0xFFFF#16, 0x2601#16), (1#16, 0x8765#16)] [] []) 3 =
      some (0x8765#16, 4#16, 0#16) := by decide

/-- The keyboard machines of LD-7 to LD-11: an LD of KBSR at 0xFDFE. -/
def kbsrLoad (kb : List KbDraw) : State :=
  machine 0xFDFE#16 [(0xFDFE#16, 0x2201#16), (0xFE00#16, 0x1234#16), (0xFE02#16, 0x0055#16)] [] kb

/-- LD-11 and LD-10, LD-8: with a byte, and without. -/
theorem test_ld_kbsr :
    let t := after (kbsrLoad [.input 0xC3#8])
    let u := after (kbsrLoad [.noInput])
    (t.gpr 1, t.cond, Memory.get 0xFE00#16 t.mem, Memory.get 0xFE02#16 t.mem) =
        (0x8000#16, 4#16, 0x8000#16, 0x00C3#16) ∧
      (u.gpr 1, u.cond, Memory.get 0xFE00#16 u.mem, Memory.get 0xFE02#16 u.mem) =
        (0#16, 2#16, 0#16, 0x0055#16) := by decide

/-- FE-2: a fetch at KBSR polls and halts. -/
theorem test_fetch_at_kbsr :
    let t := after (machine 0xFE00#16 [] [] [.input 0x41#8])
    (t.run, t.pc, Memory.get 0xFE00#16 t.mem, Memory.get 0xFE02#16 t.mem, t.kbDraws) =
      (.halted, 0xFE01#16, 0x8000#16, 0x0041#16, []) := by decide

/-- FE-1: PC wraps. -/
theorem test_pc_wraps :
    seen (machine 0xFFFF#16 [(0xFFFF#16, 0x1021#16)] [] []) 0 = some (1#16, 1#16, 0#16) := by decide

/-- FE-5: each of the thirteen opcodes halts. -/
theorem test_unimplemented_halt :
    [0x0000#16, 0x3000#16, 0x4000#16, 0x6000#16, 0x7000#16, 0x8000#16, 0x9000#16, 0xA000#16, 0xB000#16, 0xC000#16,
      0xD000#16, 0xE000#16, 0xF000#16].all (fun w =>
        (nextOf (step (one w []))).map (fun t => (t.run, t.haltReason, t.pc, t.cond)) =
          some (.halted, some .unimplementedOpcode, 0x3001#16, 0#16)) = true := by decide

/-- L1-12, FE-7: word 0xF025, and no step after it. -/
theorem test_no_step_after_halt :
    let t := after (one 0xF025#16 [])
    t.run = .halted ∧ t.fault = none ∧ (nextOf (step t)).isNone = true := by decide

/-- The host's placing of an instruction: the first step after reset runs it. -/
theorem test_withFetchWord : seen (State.reset.withFetchWord 16 0x1021) 0 = some (1#16, 1#16, 0x3001#16) := by decide

/-! ### The boundary -/

/-- LO-1: truncation at 0xFFFF. -/
theorem test_loader_truncates :
    ((boot Config.spec [] (some [0xFF#8, 0xFE#8, 0xAA#8, 0xAA#8, 0xBB#8, 0xBB#8, 0xCC#8, 0xCC#8])).toOption).map
        (fun s => (Memory.get 0xFFFE#16 s.mem, Memory.get 0xFFFF#16 s.mem, Memory.get 0#16 s.mem)) =
      some (0xAAAA#16, 0xBBBB#16, 0#16) := by decide

/-- LO-4: an odd byte is ignored; LO-5: no origin. -/
theorem test_loader_malformed :
    ((boot Config.spec [] (some [0x30#8, 0x00#8, 0x10#8, 0x21#8, 0xF0#8])).toOption).map State.mem =
        some [(24576, 0x10#8), (24577, 0x21#8)] ∧
      (boot Config.spec [] (some [0x30#8])).toOption = none := by decide

/-- The Reporter's registers after L1-12. -/
theorem test_report :
    (after (one 0xF025#16 [(2, 7#16)])).report = some [0#16, 0#16, 7#16, 0#16, 0#16, 0#16, 0#16, 0#16] ∧
      State.reset.report = none := by decide

/-! ### Witnesses: the hypotheses of each statement can be met, at the ends of each clause -/

theorem witness_DecodeEncodeRoundTrip :
    (Instr.addImm 7 0 0xFFF0#16).wf = true ∧ (Instr.ld 7 0x00FF#16).wf = true := by decide

/-- Both ends of each opcode's words that a clause starts at: all sixteen opcodes, both mode bits. -/
theorem witness_DecodeSelectsFormAndFields :
    (List.range 16).all (fun op => (BitVec.ofNat 16 (4096 * op)).toNat / 4096 = op ∧
      (BitVec.ofNat 16 (4096 * op + 4095)).toNat / 4096 = op) = true ∧
    (0x1020#16 : Word).toNat / 32 % 2 = 1 ∧ (0x1FDF#16 : Word).toNat / 32 % 2 = 0 ∧
    (0x5020#16 : Word).toNat / 32 % 2 = 1 ∧ (0x5FDF#16 : Word).toNat / 32 % 2 = 0 := by decide

theorem witness_ExactlyOneTableRowCoversAWord :
    (decode 0x103F#16).row ∈ opcodeTable ∧ (decode 0xFFFF#16).row ∈ opcodeTable := by decide

/-- Both ends of the widths, and bits on both sides of the sign bit. -/
theorem witness_SignExtensionKeepsTheSignedValue :
    (sext 1 1#16).getLsbD 0 = true ∧ (sext 1 1#16).getLsbD 15 = true ∧ (sext 16 0x8000#16).getLsbD 15 = true ∧
      (sext 5 0x10#16).getLsbD 4 = true ∧ (sext 5 0x10#16).getLsbD 5 = true ∧ (sext 5 0x2F#16).getLsbD 5 = false := by
  decide

/-- Index 9 is in range, index 10 is not. -/
theorem witness_RegisterFileReadsWhatWasWritten :
    RegFile.read 9 State.reset.regs = .ok 0#16 ∧
      RegFile.read 10 State.reset.regs = .error (.registerIndexOutOfRange 10) := ⟨rfl, rfl⟩

theorem witness_RangeFaultIsRecordedAndStopsTheMachine :
    step (raiseFault (.registerIndexOutOfRange 10) State.reset) = .fault (.registerIndexOutOfRange 10) := by
  simp [step, whenRunning, raiseFault]

theorem witness_MemoryReadPollsOnlyAtKbsr :
    (0xFE02#16 : Word) ≠ State.reset.config.kbsrAddr ∧
      State.reset.config.kbsrAddr ≠ State.reset.config.kbdrAddr ∧
      (kbsrLoad [.noInput]).draw 0 = .noInput ∧ (kbsrLoad [.input 0xFF#8]).draw 0 = .input 0xFF#8 := by decide

/-- One memory built by two writes in either order. -/
theorem witness_CanonicalMemoriesAreEqualWhenTheyReadAlike :
    let m := Memory.set 1#16 2#16 (Memory.set 3#16 4#16 [])
    let m' := Memory.set 3#16 4#16 (Memory.set 1#16 2#16 [])
    Memory.wf m ∧ Memory.wf m' ∧ ∀ a : Word, Memory.get a m = Memory.get a m' := by
  refine ⟨by decide, by decide, fun a => ?_⟩
  simp only [get_set, get_nil]
  split <;> split <;> simp_all

/-- The flag clauses at the ends of their ranges: 0x0000, 0x0001, 0x7FFF, 0x8000, 0xFFFF. -/
theorem witness_FlagOf :
    FlagOf Config.spec 0x0000#16 2#16 ∧ FlagOf Config.spec 0x0001#16 1#16 ∧ FlagOf Config.spec 0x7FFF#16 1#16 ∧
      FlagOf Config.spec 0x8000#16 4#16 ∧ FlagOf Config.spec 0xFFFF#16 4#16 := by
  unfold FlagOf; decide

/-- Both clauses at both ends: -16, -1, 0, 15. -/
theorem witness_AndImmediateKeepsOrClearsTheHighBits :
    [0xFFF0#16, 0xFFFF#16, 0x0000#16, 0x000F#16].all (fun imm => (Instr.andImm 0 1 imm).wf) = true := by decide

theorem witness_LoadWritesTheWordRead :
    (0x0001#16 : Word).toNat = ((machine 0#16 [] [] []).pc.toNat + (1#16 : Word).toNat) % 65536 := by decide

/-- KBDR is away from KBSR. -/
theorem witness_LoadAwayFromKbsrChangesDrAndCondOnly :
    let s := machine 0xFE00#16 [(0xFE02#16, 0x41#16)] [] []
    s.config.kbdrAddr.toNat = (s.pc.toNat + (2#16 : Word).toNat) % 65536 ∧ s.config.kbdrAddr ≠ s.config.kbsrAddr := by
  decide

theorem witness_LoadOfKbsrPollsTheKeyboard :
    ∀ d ∈ [KbDraw.noInput, .input 0x00#8, .input 0xFF#8],
      let s := (kbsrLoad [d]).setPc 0xFDFF#16
      s.config.Valid ∧ s.config.kbsrAddr.toNat = (s.pc.toNat + (1#16 : Word).toNat) % 65536 ∧ s.draw 0 = d := by
  decide

theorem witness_UnimplementedOpcodesHalt :
    Instr.unimpl0000 ∈ haltingInstrs ∧ Instr.unimpl1111 ∈ haltingInstrs ∧ ¬ IsExecuting 0x0FFF#16 ∧
      ¬ IsExecuting 0xF000#16 ∧ IsExecuting 0x1FFF#16 := by decide

theorem witness_EveryInstructionCompletesWithoutFault :
    destOf (.ld 7 0#16) ≠ some 6 ∧ destOf .unimpl0000 ≠ some 0 := by decide

theorem witness_StepRunsTheDecodedInstruction :
    (one 0x1021#16 []).Live ∧ (one 0x1021#16 []).pc ≠ (one 0x1021#16 []).config.kbsrAddr ∧
      decode (Memory.get (one 0x1021#16 []).pc (one 0x1021#16 []).mem) = .addImm 0 0 1#16 := by decide

theorem witness_EveryStepAdvancesPcByOne : (machine 0xFFFF#16 [] [] []).Live ∧ State.reset.Live := by decide

theorem witness_StepExistsExactlyWhileRunning :
    State.reset.Live ∧ (after (one 0xF025#16 [])).fault = none ∧ (after (one 0xF025#16 [])).run = .halted ∧
      (raiseFault (.registerIndexOutOfRange 10) State.reset).fault = some (.registerIndexOutOfRange 10) := by decide

/-- A step of a state whose instruction is an ADD: R0 changes. -/
theorem witness_GprChangesOnlyAsDestination :
    step (one 0x1021#16 []) = .next (after (one 0x1021#16 [])) ∧
      (after (one 0x1021#16 [])).gpr 0 ≠ (one 0x1021#16 []).gpr 0 := ⟨step_after (by decide), by decide⟩

theorem witness_CondFollowsTheRegisterWritten :
    step (one 0x1021#16 []) = .next (after (one 0x1021#16 [])) ∧
      destOf (decode (one 0x1021#16 []).fetched) = some 0 ∧
      step (one 0xF025#16 []) = .next (after (one 0xF025#16 [])) ∧
      destOf (decode (one 0xF025#16 []).fetched) = none :=
  ⟨step_after (by decide), by decide, step_after (by decide), by decide⟩

/-- By a first update, and by a flag already set before a halting word. -/
theorem witness_ExactlyOneFlagAfterTheFirstUpdate :
    let s := (one 0xF025#16 []).setCond 2#16
    (one 0x1021#16 []).config.Valid ∧ step (one 0x1021#16 []) = .next (after (one 0x1021#16 [])) ∧
      IsExecuting (one 0x1021#16 []).fetched ∧ s.config.Valid ∧ step s = .next (after s) ∧ s.FlagSet :=
  ⟨by decide, step_after (by decide), by decide, by decide, step_after (by decide), by decide⟩

theorem witness_NoInstructionReadsCond : step (one 0x1021#16 []) = .next (after (one 0x1021#16 [])) :=
  step_after (by decide)

/-- The LD of KBSR at 0xFDFE loads from KBSR. -/
theorem kbsrLoad_loads : (kbsrLoad [.noInput]).LoadsFrom (kbsrLoad [.noInput]).config.kbsrAddr :=
  ⟨1, 1#16, by decide, by decide⟩

/-- An instruction that is no LD, fetched away from KBSR, does not read KBSR. -/
theorem one_add_reads_no_kbsr : ¬ (one 0x1021#16 []).ReadsKbsr := by
  have hd : decode (one 0x1021#16 []).fetched = .addImm 0 0 1#16 := by decide
  rintro (h | ⟨dr, off, h, _⟩)
  · exact absurd h (by decide)
  · rw [hd] at h; cases h

theorem witness_MemoryChangesOnlyByAKeyboardPoll :
    step (kbsrLoad [.noInput]) = .next (after (kbsrLoad [.noInput])) ∧ (kbsrLoad [.noInput]).ReadsKbsr ∧
      step (one 0x1021#16 []) = .next (after (one 0x1021#16 [])) ∧ ¬ (one 0x1021#16 []).ReadsKbsr :=
  ⟨step_after (by decide), .inr kbsrLoad_loads, step_after (by decide), one_add_reads_no_kbsr⟩

theorem witness_InputIsUnseenUntilKbsrIsRead :
    let s := one 0x1021#16 []
    let s' : State := { s with kbDraws := [.input 0x41#8] }
    AgreeButKeyboard s s' ∧ ¬ s.ReadsKbsr ∧ step s = .next (after s) :=
  ⟨⟨rfl, rfl, rfl, rfl, rfl, rfl⟩, one_add_reads_no_kbsr, step_after (by decide)⟩

/-- An LD of KBSR standing just below KBDR. -/
theorem witness_NextFetchSeesThePollStores :
    let s := machine 0xFE01#16 [(0xFE01#16, 0x21FE#16)] [] [.input 0x41#8]
    s.config.Valid ∧ s.pc ≠ s.config.kbsrAddr ∧ s.LoadsFrom s.config.kbsrAddr ∧ s.draw 0 = .input 0x41#8 ∧
      (after s).pc = s.config.kbdrAddr ∧ step s = .next (after s) :=
  ⟨by decide, by decide, ⟨0, 0xFFFE#16, by decide, by decide⟩, by decide, by decide, step_after (by decide)⟩

theorem witness_FetchAtKbsrHalts :
    ∀ d ∈ [KbDraw.noInput, .input 0x00#8, .input 0xFF#8],
      let s := machine 0xFE00#16 [] [] [d]
      s.Live ∧ s.config.Valid ∧ s.pc = s.config.kbsrAddr ∧ s.draw 0 = d := by decide

theorem witness_HaltingWordFreezesTheMachine :
    [0x0000#16, 0xFFFF#16].all (fun w =>
      (one w []).Live ∧ (one w []).pc ≠ (one w []).config.kbsrAddr ∧
        ¬ IsExecuting (Memory.get (one w []).pc (one w []).mem)) = true := by decide

theorem witness_StepHaltsExactlyOnUnimplementedOpcodes :
    step (one 0x5FFF#16 []) = .next (after (one 0x5FFF#16 [])) ∧ IsExecuting (one 0x5FFF#16 []).fetched ∧
      step (one 0x6000#16 []) = .next (after (one 0x6000#16 [])) ∧ ¬ IsExecuting (one 0x6000#16 []).fetched :=
  ⟨step_after (by decide), by decide, step_after (by decide), by decide⟩

/-- LD-5: at 0x0000 with offset -256 the address is 0xFF01; LD-3: at 0x3000 with offset 255 it is 0x3100. -/
theorem witness_LoadAddressIsRelativeToTheNextWord :
    (let s := machine 0#16 [(0#16, 0x2100#16)] [] []
     s.Live ∧ s.pc ≠ s.config.kbsrAddr ∧ Memory.get s.pc s.mem = packPCR 0 0x100#9 ∧
       ((0xFF01#16 : Word).toNat : Int) = (s.pc.toNat + 1 + (0x100#9).toInt) % 65536 ∧
       0xFF01#16 ≠ s.config.kbsrAddr) ∧
    (let s := one 0x24FF#16 []
     s.Live ∧ s.pc ≠ s.config.kbsrAddr ∧ Memory.get s.pc s.mem = packPCR 2 0x0FF#9 ∧
       ((0x3100#16 : Word).toNat : Int) = (s.pc.toNat + 1 + (0x0FF#9).toInt) % 65536 ∧
       0x3100#16 ≠ s.config.kbsrAddr) := by decide

/-- LD-6. -/
theorem witness_LoadOfOwnWord :
    (one 0x21FF#16 []).Live ∧ (one 0x21FF#16 []).pc ≠ (one 0x21FF#16 []).config.kbsrAddr ∧
      Memory.get (one 0x21FF#16 []).pc (one 0x21FF#16 []).mem = packPCR 0 0b111111111#9 := by decide

theorem witness_InvariantKeptByEveryStep :
    (kbsrLoad [.input 0x41#8]).Inv ∧ step (kbsrLoad [.input 0x41#8]) = .next (after (kbsrLoad [.input 0x41#8])) :=
  ⟨by decide, step_after (by decide)⟩

theorem witness_InvariantHoldsAfterBoot :
    Config.spec.Valid ∧ ∃ s, boot Config.spec [] (some [0x30#8, 0x00#8, 0x10#8, 0x21#8]) = .ok s :=
  ⟨by decide, _, rfl⟩

theorem witness_BootStartsAt3000WhateverTheOrigin :
    ∃ s, boot Config.spec [.noInput] (some [0x40#8, 0x00#8, 0x10#8, 0x21#8]) = .ok s := ⟨_, rfl⟩

/-- Below the origin, at it, at the last word, past it, and at the end of memory. -/
theorem witness_LoaderPlacesTheImageAtItsOrigin :
    ([] : List Byte).length ≤ 1 ∧ [0xF0#8].length ≤ 1 ∧
      ((boot Config.spec [] (some (streamOf [0xFFFD#16, 0x1111#16, 0x2222#16] ++ [0xF0#8]))).toOption).map
          (fun s => [0xFFFC#16, 0xFFFD#16, 0xFFFE#16, 0xFFFF#16, 0x0000#16].map fun a => Memory.get a s.mem) =
        some [0#16, 0x1111#16, 0x2222#16, 0#16, 0#16] := by decide

theorem witness_ReporterReceivesTheGprsOnHalt :
    State.reset.run = .running ∧ (after (one 0xF025#16 [])).run = .halted := by decide

theorem witness_RunsFetchConsecutiveAddresses :
    Host.Core.run Sys2Proof.core 1 (one 0x1021#16 []) = .next (after (one 0x1021#16 [])) :=
  run_after (by decide)

theorem witness_EveryRunHaltsByKbsr : State.reset.Live ∧ (kbsrLoad [.noInput]).Live := by decide

theorem witness_EveryBootedRunHaltsWithin52737Steps :
    ∃ s, boot Config.spec [.input 0x41#8] (some [0x30#8, 0x00#8]) = .ok s := ⟨_, rfl⟩

/-- Two ways of holding the same answers: listed, and all but the first still to come from the free value. -/
theorem witness_RunsAreDeterminedByTheKeyboardAnswers :
    let s : State := { one 0x1021#16 [] with kbDraws := [.noInput] }
    let s' : State := { one 0x1021#16 [] with kbDraws := [.noInput, Config.keyboardDraw 1] }
    AgreeButKeyboard s s' ∧ (∀ k, s'.draw k = s.draw k) ∧ Host.Core.run Sys2Proof.core 1 s = .next (after s) := by
  refine ⟨⟨rfl, rfl, rfl, rfl, rfl, rfl⟩, fun k => ?_, run_after (by decide)⟩
  match k with
  | 0 => rfl
  | 1 => rfl
  | k + 2 => rfl

end Sys2Proof.Machine.Tests
end

section
/-! The sign extension of 00_scope.md R14, bit by bit and as `BitVec.signExtend` of the low bits. -/

namespace Sys2Proof

/-- The mask `2^n - 1` has exactly the bits below `n`. -/
theorem lowMask_getLsbD (n : Nat) {i : Nat} (hi : i < 16) :
    (BitVec.ofNat 16 (2 ^ n - 1)).getLsbD i = decide (i < n) := by
  rw [BitVec.getLsbD_ofNat, Nat.testBit_two_pow_sub_one, decide_eq_true hi, Bool.true_and]

/-- Below `n` the bits are those of the word; from `n` on each is the sign bit `n - 1`. -/
theorem sext_getLsbD {n i : Nat} (v : Word) (hn : 1 ≤ n) (hn16 : n ≤ 16) (hi : i < 16) :
    (sext n v).getLsbD i = if i < n then v.getLsbD i else v.getLsbD (n - 1) := by
  have hsign : (v &&& BitVec.ofNat 16 (2 ^ n - 1)).getLsbD (n - 1) = v.getLsbD (n - 1) := by
    rw [BitVec.getLsbD_and, lowMask_getLsbD n (by omega), decide_eq_true (by omega), Bool.and_true]
  have hones : (0xFFFF#16 <<< n).getLsbD i = !decide (i < n) := by
    have : (0xFFFF#16).getLsbD (i - n) = true := by
      rw [show 0xFFFF#16 = BitVec.allOnes 16 from rfl, BitVec.getLsbD_allOnes, decide_eq_true (by omega)]
    simp [this, hi]
  rw [sext, hsign]
  by_cases hin : i < n
  · split <;> simp [lowMask_getLsbD n hi, hones, hin]
  · split
    · next hs => simp [lowMask_getLsbD n hi, hones, hin, hs]
    · next hs => simp [lowMask_getLsbD n hi, hin, hs]

/-- The pseudocode of R14 is the library's sign extension of the low `n` bits. -/
theorem sext_eq_signExtend {n : Nat} (v : Word) (hn : 1 ≤ n) (hn16 : n ≤ 16) :
    sext n v = (v.setWidth n).signExtend 16 := by
  apply BitVec.eq_of_getLsbD_eq
  intro i hi
  rw [sext_getLsbD v hn hn16 hi, BitVec.getLsbD_signExtend, BitVec.msb_eq_getLsbD_last]
  by_cases hin : i < n
  · simp [hi, hin]
  · simp [hi, hin, show n - 1 < n by omega]

end Sys2Proof

/-- Settles O6: bit by bit `sext` is the library's sign extension, which keeps the signed value. -/
theorem signExtensionKeepsTheSignedValue : Obligations.SignExtensionKeepsTheSignedValue := by
  unfold Obligations.SignExtensionKeepsTheSignedValue
  intro n v hn hn16
  constructor
  · rw [Sys2Proof.sext_eq_signExtend v hn hn16, BitVec.toInt_signExtend_of_le hn16]
  · intro i hi
    exact Sys2Proof.sext_getLsbD v hn hn16 hi
end

section
/-! Two states that agree in all but how the keyboard's answers are held, and whose answers are the same, stay so under
every operation of the machine (00_scope.md R18). -/

namespace Sys2Proof.Machine

/-- The states agree outside the keyboard and the same answers are still to come, however each state holds them. -/
def AgreeInAnswers (s t : State) : Prop := AgreeButKeyboard s t ∧ ∀ k, t.draw k = s.draw k

section
variable {s t : State}

/-! ### Operations on states that agree but for the keyboard -/

theorem AgreeButKeyboard.setPc (h : AgreeButKeyboard s t) (v : Word) : AgreeButKeyboard (s.setPc v) (t.setPc v) := by
  obtain ⟨hregs, hmem, hcontrol⟩ := h
  exact ⟨by simp [hregs], hmem, hcontrol⟩

theorem AgreeButKeyboard.setCond (h : AgreeButKeyboard s t) (v : Word) :
    AgreeButKeyboard (s.setCond v) (t.setCond v) := by
  obtain ⟨hregs, hmem, hcontrol⟩ := h
  exact ⟨by simp [hregs], hmem, hcontrol⟩

theorem AgreeButKeyboard.setGpr (h : AgreeButKeyboard s t) (r : RegField) (v : Word) :
    AgreeButKeyboard (s.setGpr r v) (t.setGpr r v) := by
  obtain ⟨hregs, hmem, hcontrol⟩ := h
  exact ⟨by simp [setGpr_regs, hregs], hmem, hcontrol⟩

theorem AgreeButKeyboard.memWrite (h : AgreeButKeyboard s t) (a v : Word) :
    AgreeButKeyboard (memWrite a v s) (memWrite a v t) := by
  obtain ⟨hregs, hmem, hcontrol⟩ := h
  exact ⟨hregs, by simp [hmem], hcontrol⟩

theorem AgreeButKeyboard.halt (h : AgreeButKeyboard s t) (r : HaltReason) :
    AgreeButKeyboard (halt r s) (halt r t) := by
  obtain ⟨hregs, hmem, -, -, hfault, hconfig⟩ := h
  exact ⟨hregs, hmem, rfl, rfl, hfault, hconfig⟩

/-! ### What they read -/

theorem AgreeButKeyboard.config_eq (h : AgreeButKeyboard s t) : t.config = s.config := by
  obtain ⟨-, -, -, -, -, hconfig⟩ := h
  exact hconfig

theorem AgreeButKeyboard.pc_eq (h : AgreeButKeyboard s t) : t.pc = s.pc := by
  simp only [State.pc, h.1]

theorem AgreeButKeyboard.gpr_eq (h : AgreeButKeyboard s t) (r : RegField) : t.gpr r = s.gpr r := by
  simp only [State.gpr, h.1]

theorem AgreeButKeyboard.operand2Value_eq (h : AgreeButKeyboard s t) (o : Operand2) :
    operand2Value o t = operand2Value o s := by
  cases o with
  | reg sr2 => exact h.gpr_eq sr2
  | imm v => rfl

/-! ### Reads through the arbiter: the one place where an answer counts -/

theorem AgreeInAnswers.takeDraw (h : AgreeInAnswers s t) : AgreeInAnswers s.takeDraw t.takeDraw := by
  obtain ⟨hagree, hdraw⟩ := h
  exact ⟨hagree, fun k => by rw [takeDraw_draw, takeDraw_draw, hdraw]⟩

theorem AgreeInAnswers.memWrite (h : AgreeInAnswers s t) (a v : Word) :
    AgreeInAnswers (memWrite a v s) (memWrite a v t) :=
  ⟨h.1.memWrite a v, h.2⟩

/-- A poll takes the same answer in both states and stores the same words. -/
theorem AgreeInAnswers.pollKeyboard (h : AgreeInAnswers s t) : AgreeInAnswers (pollKeyboard s) (pollKeyboard t) := by
  have ht : t.draw 0 = s.draw 0 := h.2 0
  cases hs : s.draw 0 with
  | noInput =>
    rw [pollKeyboard_noInput hs, pollKeyboard_noInput (ht.trans hs), h.1.config_eq]
    exact h.takeDraw.memWrite _ _
  | input b =>
    rw [pollKeyboard_input hs, pollKeyboard_input (ht.trans hs), h.1.config_eq]
    exact (h.takeDraw.memWrite _ _).memWrite _ _

theorem AgreeInAnswers.pollIfKbsr (h : AgreeInAnswers s t) (a : Word) :
    AgreeInAnswers (pollIfKbsr a s) (pollIfKbsr a t) := by
  by_cases ha : a = s.config.kbsrAddr
  · have ha' : a = t.config.kbsrAddr := by rw [ha, h.1.config_eq]
    rw [Machine.pollIfKbsr, Machine.pollIfKbsr, if_pos ha, if_pos ha']
    exact h.pollKeyboard
  · rw [pollIfKbsr_other ha, pollIfKbsr_other (by rwa [h.1.config_eq])]
    exact h

theorem AgreeInAnswers.memRead_word_eq (h : AgreeInAnswers s t) (a : Word) : (memRead a t).1 = (memRead a s).1 := by
  obtain ⟨-, hmem, -⟩ := (h.pollIfKbsr a).1
  exact congrArg (Memory.get a) hmem

/-! ### Results -/

/-- Two results are alike: next states that agree, answers included, or one and the same fault. -/
def ResultsAlike (r r' : Result) : Prop :=
  (∃ u u', r = .next u ∧ r' = .next u' ∧ AgreeInAnswers u u') ∨ ∃ f, r = .fault f ∧ r' = .fault f

theorem AgreeInAnswers.next (h : AgreeInAnswers s t) : ResultsAlike (.next s) (.next t) := .inl ⟨s, t, rfl, rfl, h⟩

theorem AgreeInAnswers.writeBack (h : AgreeInAnswers s t) (dr : RegField) (v : Word) :
    ResultsAlike (writeBack dr v s) (writeBack dr v t) := by
  rw [writeBack_eq, writeBack_eq, h.1.config_eq]
  exact AgreeInAnswers.next ⟨(h.1.setGpr dr v).setCond _, h.2⟩

theorem AgreeInAnswers.operate (h : AgreeInAnswers s t) (op : AluOp) (dr sr1 : RegField) (o : Operand2) :
    ResultsAlike (operate op dr sr1 o s) (operate op dr sr1 o t) := by
  rw [operate_eq, operate_eq, h.1.gpr_eq, h.1.operand2Value_eq]
  exact h.writeBack dr _

theorem AgreeInAnswers.execLd (h : AgreeInAnswers s t) (dr : RegField) (off : Word) :
    ResultsAlike (execLd dr off s) (execLd dr off t) := by
  rw [execLd_eq, execLd_eq, h.1.pc_eq, h.memRead_word_eq]
  exact (h.pollIfKbsr _).writeBack dr _

theorem AgreeInAnswers.unimplemented (h : AgreeInAnswers s t) : ResultsAlike (unimplemented s) (unimplemented t) :=
  AgreeInAnswers.next ⟨h.1.halt _, h.2⟩

theorem AgreeInAnswers.exec (h : AgreeInAnswers s t) (i : Instr) : ResultsAlike (exec i s) (exec i t) := by
  cases i with
  | addReg dr sr1 sr2 => exact h.operate .add dr sr1 (.reg sr2)
  | addImm dr sr1 imm => exact h.operate .add dr sr1 (.imm imm)
  | andReg dr sr1 sr2 => exact h.operate .and dr sr1 (.reg sr2)
  | andImm dr sr1 imm => exact h.operate .and dr sr1 (.imm imm)
  | ld dr off => exact h.execLd dr off
  | _ => exact h.unimplemented

/-! ### Steps and runs -/

/-- The guard answers both states alike, and lets both through where it lets one. -/
theorem AgreeInAnswers.whenRunning (h : AgreeInAnswers s t) {k : State → Result} (hk : ResultsAlike (k s) (k t)) :
    ResultsAlike (whenRunning s k) (whenRunning t k) := by
  obtain ⟨⟨-, -, hrun, -, hfault, -⟩, -⟩ := h
  unfold Machine.whenRunning
  rw [hrun, hfault]
  split
  · exact .inr ⟨_, rfl, rfl⟩
  · exact .inr ⟨_, rfl, rfl⟩
  · exact hk

theorem AgreeInAnswers.step (h : AgreeInAnswers s t) : ResultsAlike (step s) (step t) := by
  apply h.whenRunning
  have hfetched : t.fetched = s.fetched := by
    rw [State.fetched, State.fetched, h.1.pc_eq, h.memRead_word_eq]
  rw [fetching_eq, fetching_eq, hfetched, h.1.pc_eq]
  have hpolled := h.pollIfKbsr s.pc
  exact AgreeInAnswers.exec ⟨hpolled.1.setPc _, hpolled.2⟩ _

end

theorem AgreeInAnswers.run (n : Nat) {s t : State} (h : AgreeInAnswers s t) :
    ResultsAlike (Host.Core.run core n s) (Host.Core.run core n t) := by
  induction n generalizing s t with
  | zero => exact h.next
  | succ n ih =>
    obtain ⟨u, u', hs, ht, hu⟩ | ⟨f, hs, ht⟩ := h.step
    · rw [run_succ_of_next hs, run_succ_of_next ht]
      exact ih hu
    · rw [run_succ_of_fault hs, run_succ_of_fault ht]
      exact .inr ⟨f, rfl, rfl⟩

end Sys2Proof.Machine

open Sys2Proof.Machine in
/-- Settles O50: agreement, answers included, is kept by every step, so runs of every length are alike. -/
theorem runsAreDeterminedByTheKeyboardAnswers : Obligations.RunsAreDeterminedByTheKeyboardAnswers := by
  unfold Obligations.RunsAreDeterminedByTheKeyboardAnswers
  intro n s s' hagree hdraw
  obtain ⟨u, u', hs, hs', hu⟩ | ⟨f, hs, hs'⟩ := AgreeInAnswers.run n ⟨hagree, hdraw⟩
  · refine ⟨fun t ht => ?_, fun f hf => ?_⟩
    · cases hs.symm.trans ht
      exact ⟨u', hs', hu⟩
    · cases hs.symm.trans hf
  · refine ⟨fun t ht => ?_, fun g hg => ?_⟩
    · cases hs.symm.trans ht
    · cases hs.symm.trans hg
      exact hs'
end

section
/-! The register file on both sides of its index check (10_state.md R21, R22), the recorded range fault
(60_exceptions.md R203), and the registers at creation and reset (10_state.md R38). -/

namespace Sys2Proof.Machine

theorem read_ge {i : Nat} (h : 10 ≤ i) (rf : RegFile) : RegFile.read i rf = .error (.registerIndexOutOfRange i) :=
  dif_neg (Nat.not_lt.mpr h)

theorem write_ge {i : Nat} (h : 10 ≤ i) (v : Word) (rf : RegFile) :
    RegFile.write i v rf = .error (.registerIndexOutOfRange i) :=
  dif_neg (Nat.not_lt.mpr h)

/-- Replacing entry `i` is seen by no read at another index, in range or not. -/
theorem read_set_other {i j : Nat} (hi : i < 10) (hji : j ≠ i) (v : Word) (rf : RegFile) :
    RegFile.read j (rf.set i v hi) = RegFile.read j rf := by
  by_cases hj : j < 10
  · rw [read_lt hj, read_lt hj, Vector.getElem_set_ne _ _ hji.symm]
  · rw [read_ge (by omega), read_ge (by omega)]

theorem withReg_ge {i : Nat} (h : 10 ≤ i) (s : State) (k : Word → Result) :
    withReg i s k = .next (raiseFault (.registerIndexOutOfRange i) s) := by
  rw [withReg, read_ge h]

theorem writingReg_ge {i : Nat} (h : 10 ≤ i) (v : Word) (s : State) (k : State → Result) :
    writingReg i v s k = .next (raiseFault (.registerIndexOutOfRange i) s) := by
  rw [writingReg, write_ge h]

/-- A recorded fault leaves no step, whatever the run state. -/
theorem step_of_fault {s : State} {i : Nat} (h : s.fault = some (.registerIndexOutOfRange i)) :
    step s = .fault (.registerIndexOutOfRange i) := by
  rw [step, whenRunning, h]

end Sys2Proof.Machine

open Sys2Proof Sys2Proof.Machine

/-- Settles O8: the entry written is the one read back, and no read at another index sees the write. -/
theorem registerFileReadsWhatWasWritten : Obligations.RegisterFileReadsWhatWasWritten := by
  unfold Obligations.RegisterFileReadsWhatWasWritten
  intro rf i v
  refine ⟨fun hi => ⟨⟨_, read_lt hi rf⟩, _, write_lt hi v rf, ?_, fun j hji => read_set_other hi hji v rf⟩,
    fun hi => ⟨read_ge hi rf, write_ge hi v rf⟩⟩
  rw [read_lt hi, Vector.getElem_set_self]

/-- Settles O9: both accesses answer the state with the fault recorded, and that state has no step. -/
theorem rangeFaultIsRecordedAndStopsTheMachine : Obligations.RangeFaultIsRecordedAndStopsTheMachine := by
  unfold Obligations.RangeFaultIsRecordedAndStopsTheMachine
  intro s i v k k' hi
  exact ⟨raiseFault (.registerIndexOutOfRange i) s, withReg_ge hi s k, writingReg_ge hi v s k', rfl,
    fun _ _ _ => rfl, fun _ _ => rfl, ⟨rfl, rfl⟩, rfl, rfl, rfl, step_of_fault rfl⟩

/-- Settles O42: creation replicates zero, and reset writes entry 8 alone. -/
theorem registersAtCreationAndReset : Obligations.RegistersAtCreationAndReset := by
  unfold Obligations.RegistersAtCreationAndReset
  refine ⟨fun c kb i hi => Vector.getElem_replicate hi, rfl, fun i hi hmem => ?_⟩
  have hi8 : 8 ≠ i := fun h => hmem (by simp [h])
  exact Vector.getElem_set_ne (by decide) hi hi8
end

section
/-! What a step can do, said once (40_cycle.md R101 to R104, R116): it reads memory for the fetch and perhaps for data,
advances PC, and then halts or writes DR and COND. -/

namespace Sys2Proof.Machine

/-- The state a step dispatches in: the fetch read has been made and PC advanced. -/
def State.afterFetch (s : State) : State := (pollIfKbsr s.pc s).setPc (nextPc s.pc)

/-- The state a step halts or writes back from: its data read, if any, has been made too. -/
def State.afterReads (s : State) : State := afterDataRead (decode s.fetched) s.afterFetch

section
variable (s : State)

/-- The reads of a step change no register but PC. -/
theorem afterReads_regs : s.afterReads.regs = s.regs.set 8 (nextPc s.pc) := by
  obtain ⟨hdata, -⟩ := afterDataRead_frame (decode s.fetched) s.afterFetch
  obtain ⟨hfetch, -⟩ := pollIfKbsr_frame s.pc s
  rw [State.afterReads, hdata, State.afterFetch, setPc_regs, hfetch]

@[simp] theorem afterReads_gpr (r : RegField) : s.afterReads.gpr r = s.gpr r := by
  rw [← setPc_gpr (nextPc s.pc) s]
  simp only [State.gpr, afterReads_regs, setPc_regs]

@[simp] theorem afterReads_cond : s.afterReads.cond = s.cond := by simp [State.cond, afterReads_regs]

/-- The reads of a step leave the sequencer's state and the parameters alone. -/
theorem afterReads_control : SameControl s s.afterReads := by
  obtain ⟨-, hrun, hreason, hfault, hconfig⟩ := afterDataRead_frame (decode s.fetched) s.afterFetch
  obtain ⟨-, hrun', hreason', hfault', hconfig'⟩ := pollIfKbsr_frame s.pc s
  exact ⟨hrun.trans hrun', hreason.trans hreason', hfault.trans hfault', hconfig.trans hconfig'⟩

@[simp] theorem afterReads_config : s.afterReads.config = s.config := by
  obtain ⟨-, -, -, hconfig⟩ := afterReads_control s
  exact hconfig

end

section
variable {s t : State}

theorem afterReads_wf (h : Memory.wf s.mem) : Memory.wf s.afterReads.mem :=
  afterDataRead_wf (decode s.fetched) (s := s.afterFetch) (pollIfKbsr_wf s.pc h)

/-- An instruction with no DR reads no data. -/
theorem afterDataRead_of_destOf_none {i : Instr} (h : destOf i = none) (s : State) : afterDataRead i s = s := by
  cases i with
  | ld dr off => cases h
  | _ => rfl

/-- A live state steps by executing the fetched instruction. -/
theorem step_of_live (h : s.Live) : step s = exec (decode s.fetched) s.afterFetch := by
  rw [step, whenRunning_live h, fetching_eq, State.afterFetch]

/-- The inversion of `step`: it started live, and from the state its reads leave it halted, the instruction having no
DR, or wrote DR and then COND. -/
theorem step_cases (h : step s = .next t) :
    s.Live ∧
      ((destOf (decode s.fetched) = none ∧ t = halt .unimplementedOpcode s.afterReads) ∨
        ∃ dr v, destOf (decode s.fetched) = some dr ∧
          t = (s.afterReads.setGpr dr v).setCond (condCode s.config v)) := by
  obtain ⟨hlive, -⟩ := live_of_whenRunning_next h
  rw [step_of_live hlive] at h
  refine ⟨hlive, ?_⟩
  obtain ⟨hdest, hexec⟩ | ⟨dr, v, hdest, hexec⟩ := exec_cases (decode s.fetched) s.afterFetch
  · cases hexec.symm.trans h
    exact .inl ⟨hdest, by rw [State.afterReads, afterDataRead_of_destOf_none hdest]⟩
  · rw [writeBack_eq] at hexec
    cases hexec.symm.trans h
    exact .inr ⟨dr, v, hdest, by rw [← afterReads_config s]; rfl⟩

end

end Sys2Proof.Machine

open Sys2Proof.Machine

/-- Settles O27: a halting step changes no general-purpose register, any other step its DR alone. -/
theorem gprChangesOnlyAsDestination : Obligations.GprChangesOnlyAsDestination := by
  unfold Obligations.GprChangesOnlyAsDestination
  intro s t r hstep hne
  obtain ⟨-, ⟨-, rfl⟩ | ⟨dr, v, hdest, rfl⟩⟩ := step_cases hstep
  · exact absurd (by simp) hne
  · by_cases hdr : dr = r
    · rw [hdest, hdr]
    · exact absurd (by simp [setGpr_gpr_other hdr]) hne
end

section
/-! The flags (10_state.md R26, 40_cycle.md R110, R111) and the invariant of `State.Inv`. -/

namespace Sys2Proof.Machine

/-- The opcodes that execute are those with a DR (30_encoding.md R87, 10_state.md R23). -/
theorem destOf_decode_of_isExecuting {w : Word} (h : IsExecuting w) : destOf (decode w) = some (drOf w) := by
  obtain hadd | hld | hand := h
  · rw [decode_add hadd]
    split <;> rfl
  · rw [decode_ld hld]
    rfl
  · rw [decode_and hand]
    split <;> rfl

theorem condCode_is_flag (c : Config) (v : Word) :
    condCode c v = c.condPos ∨ condCode c v = c.condZero ∨ condCode c v = c.condNeg := by
  unfold condCode
  split
  · exact .inr (.inl rfl)
  · split
    · exact .inr (.inr rfl)
    · exact .inl rfl

/-- With valid parameters the flag codes are distinct, so a COND that holds one of them holds exactly one. -/
theorem State.FlagSet.exactlyOne {s : State} (h : s.FlagSet) (hvalid : s.config.Valid) :
    (s.cond = s.config.condPos ∧ s.cond ≠ s.config.condZero ∧ s.cond ≠ s.config.condNeg) ∨
    (s.cond ≠ s.config.condPos ∧ s.cond = s.config.condZero ∧ s.cond ≠ s.config.condNeg) ∨
    (s.cond ≠ s.config.condPos ∧ s.cond ≠ s.config.condZero ∧ s.cond = s.config.condNeg) := by
  obtain ⟨-, hpz, hpn, hzn, -⟩ := hvalid
  obtain hc | hc | hc := h
  · exact .inl (by simp [hc, hpz, hpn])
  · exact .inr (.inl (by simp [hc, hpz.symm, hzn]))
  · exact .inr (.inr (by simp [hc, hpn.symm, hzn.symm]))

section
variable {s t : State}

theorem step_config (h : step s = .next t) : t.config = s.config := by
  obtain ⟨-, ⟨-, rfl⟩ | ⟨dr, v, -, rfl⟩⟩ := step_cases h <;> simp

theorem step_fault (h : step s = .next t) : t.fault = none := by
  obtain ⟨⟨-, hfault⟩, hcases⟩ := step_cases h
  obtain ⟨-, -, hreads, -⟩ := afterReads_control s
  obtain ⟨-, rfl⟩ | ⟨dr, v, -, rfl⟩ := hcases <;> exact hreads.trans hfault

theorem step_wf (h : step s = .next t) (hwf : Memory.wf s.mem) : Memory.wf t.mem := by
  obtain ⟨-, ⟨-, rfl⟩ | ⟨dr, v, -, rfl⟩⟩ := step_cases h <;> exact afterReads_wf hwf

/-- A step sets a flag when it writes a register, and otherwise keeps COND. -/
theorem step_flagSet_or_cond_eq (h : step s = .next t) :
    t.FlagSet ∨ destOf (decode s.fetched) = none ∧ t.cond = s.cond := by
  obtain ⟨-, ⟨hdest, rfl⟩ | ⟨dr, v, -, rfl⟩⟩ := step_cases h
  · exact .inr ⟨hdest, by simp⟩
  · exact .inl (by simpa [State.FlagSet] using condCode_is_flag s.config v)

/-- A flag once set stays set, though the step may change which. -/
theorem step_flagSet (h : step s = .next t) (hflag : s.FlagSet) : t.FlagSet := by
  obtain hset | ⟨-, hcond⟩ := step_flagSet_or_cond_eq h
  · exact hset
  · rwa [State.FlagSet, hcond, step_config h]

/-- A step either halts with the reason or stays RUNNING with the reason there was. -/
theorem step_run_cases (h : step s = .next t) :
    (t.run = .halted ∧ t.haltReason = some .unimplementedOpcode) ∨
      (t.run = .running ∧ t.haltReason = s.haltReason) := by
  obtain ⟨⟨hrun, -⟩, hcases⟩ := step_cases h
  obtain ⟨hreads, hreason, -, -⟩ := afterReads_control s
  obtain ⟨-, rfl⟩ | ⟨dr, v, -, rfl⟩ := hcases
  · exact .inl ⟨rfl, rfl⟩
  · exact .inr ⟨hreads.trans hrun, hreason⟩

end

end Sys2Proof.Machine

open Sys2Proof.Machine

/-- Settles O29: the step leaves a flag set, by writing one or by keeping the one there was, and the codes are
distinct. -/
theorem exactlyOneFlagAfterTheFirstUpdate : Obligations.ExactlyOneFlagAfterTheFirstUpdate := by
  unfold Obligations.ExactlyOneFlagAfterTheFirstUpdate
  intro s t hvalid hstep hflag
  have hset : t.FlagSet := by
    obtain hflag | hexec := hflag
    · exact step_flagSet hstep hflag
    · obtain hset | ⟨hnone, -⟩ := step_flagSet_or_cond_eq hstep
      · exact hset
      · cases (destOf_decode_of_isExecuting hexec).symm.trans hnone
  exact hset.exactlyOne (by rwa [step_config hstep])

/-- Settles O39: the reset state's memory is empty, its COND zero, its parameters the spec's. -/
theorem invariantHoldsAtReset : Obligations.InvariantHoldsAtReset := by
  unfold Obligations.InvariantHoldsAtReset
  exact ⟨by decide, nil_wf, .inl rfl, rfl, by decide⟩

/-- Settles O40, component by component from what a step can do. -/
theorem invariantKeptByEveryStep : Obligations.InvariantKeptByEveryStep := by
  unfold Obligations.InvariantKeptByEveryStep
  intro s t hinv hstep
  obtain ⟨hvalid, hwf, hcond, -, hhalt⟩ := hinv
  refine ⟨by rwa [step_config hstep], step_wf hstep hwf, ?_, step_fault hstep, ?_⟩
  · obtain hset | ⟨-, hkept⟩ := step_flagSet_or_cond_eq hstep
    · exact .inr hset
    · rwa [State.FlagSet, hkept, step_config hstep]
  · obtain ⟨⟨hrun, -⟩, -⟩ := step_cases hstep
    obtain ⟨hrun', hreason'⟩ | ⟨hrun', hreason'⟩ := step_run_cases hstep
    · exact iff_of_true hrun' hreason'
    · rwa [hrun', hreason', ← hrun]
end

section
/-! COND is written and never read (10_state.md R28): the step's reads commute with replacing it, an instruction with a
DR overwrites it, and a halting one keeps it. -/

namespace Sys2Proof.Machine

@[simp] theorem setCond_setCond (c c' : Word) (s : State) : (s.setCond c).setCond c' = s.setCond c' := by
  simp [State.setCond]

@[simp] theorem setCond_cond_self (s : State) : s.setCond s.cond = s := by
  simp [State.setCond, State.cond]

theorem setPc_setCond (v c : Word) (s : State) : (s.setCond c).setPc v = (s.setPc v).setCond c := by
  simp only [State.setPc, State.setCond, Vector.set_comm (i := 9) (j := 8) _ _ (by decide)]

theorem setGpr_setCond (r : RegField) (v c : Word) (s : State) :
    (s.setCond c).setGpr r v = (s.setGpr r v).setCond c := by
  have hr : 9 ≠ r.toNat := by have := r.isLt; omega
  simp only [State.setGpr, State.setCond, Vector.set_comm _ _ hr]

theorem pollKeyboard_setCond (c : Word) (s : State) :
    pollKeyboard (s.setCond c) = (pollKeyboard s).setCond c := by
  cases hd : s.draw 0 with
  | noInput => rw [pollKeyboard_noInput hd, pollKeyboard_noInput (s := s.setCond c) hd]; rfl
  | input b => rw [pollKeyboard_input hd, pollKeyboard_input (s := s.setCond c) hd]; rfl

theorem pollIfKbsr_setCond (a c : Word) (s : State) : pollIfKbsr a (s.setCond c) = (pollIfKbsr a s).setCond c := by
  rw [pollIfKbsr, pollIfKbsr, setCond_config]
  split
  · exact pollKeyboard_setCond c s
  · rfl

theorem memRead_setCond (a c : Word) (s : State) : (memRead a (s.setCond c)).1 = (memRead a s).1 := by
  simp only [memRead, pollIfKbsr_setCond, setCond_mem]

theorem fetched_setCond (c : Word) (s : State) : (s.setCond c).fetched = s.fetched := by
  rw [State.fetched, setCond_pc, memRead_setCond, State.fetched]

theorem afterFetch_setCond (c : Word) (s : State) : (s.setCond c).afterFetch = s.afterFetch.setCond c := by
  rw [State.afterFetch, setCond_pc, pollIfKbsr_setCond, setPc_setCond, State.afterFetch]

/-- The write-back overwrites whatever COND held. -/
theorem writeBack_setCond (dr : RegField) (v c : Word) (s : State) :
    writeBack dr v (s.setCond c) = writeBack dr v s := by
  rw [writeBack_eq, writeBack_eq, setGpr_setCond, setCond_setCond, setCond_config]

theorem operate_setCond (op : AluOp) (dr sr1 : RegField) (o : Operand2) (c : Word) (s : State) :
    operate op dr sr1 o (s.setCond c) = operate op dr sr1 o s := by
  have hval : operand2Value o (s.setCond c) = operand2Value o s := by
    cases o with
    | reg sr2 => exact setCond_gpr c s sr2
    | imm v => rfl
  rw [operate_eq, operate_eq, setCond_gpr, hval, writeBack_setCond]

theorem execLd_setCond (dr : RegField) (off c : Word) (s : State) :
    execLd dr off (s.setCond c) = execLd dr off s := by
  rw [execLd_eq, execLd_eq, setCond_pc, memRead_setCond, pollIfKbsr_setCond, writeBack_setCond]

/-- What COND held before an instruction makes no difference if the instruction has a DR, and otherwise to COND
alone. -/
theorem exec_setCond (i : Instr) (c : Word) (s : State) :
    exec i (s.setCond c) = exec i s ∨
      ∃ t, exec i s = .next t ∧ exec i (s.setCond c) = .next (t.setCond c) := by
  cases i with
  | addReg dr sr1 sr2 => exact .inl (operate_setCond .add dr sr1 (.reg sr2) c s)
  | addImm dr sr1 imm => exact .inl (operate_setCond .add dr sr1 (.imm imm) c s)
  | andReg dr sr1 sr2 => exact .inl (operate_setCond .and dr sr1 (.reg sr2) c s)
  | andImm dr sr1 imm => exact .inl (operate_setCond .and dr sr1 (.imm imm) c s)
  | ld dr off => exact .inl (execLd_setCond dr off c s)
  | _ => exact .inr ⟨halt .unimplementedOpcode s, rfl, rfl⟩

end Sys2Proof.Machine

open Sys2Proof Sys2Proof.Machine

/-- Settles O30: the same instruction is fetched, and it overwrites COND or keeps it. -/
theorem noInstructionReadsCond : Obligations.NoInstructionReadsCond := by
  unfold Obligations.NoInstructionReadsCond
  intro s t c hstep
  obtain ⟨hlive, -⟩ := step_cases hstep
  rw [step_of_live hlive] at hstep
  have hstep' : step (s.setCond c) = exec (decode s.fetched) (s.afterFetch.setCond c) := by
    rw [step_of_live (s := s.setCond c) hlive, fetched_setCond, afterFetch_setCond]
  obtain hsame | ⟨u, hu, hu'⟩ := exec_setCond (decode s.fetched) c s.afterFetch
  · exact ⟨t.cond, by rw [hstep', hsame, hstep, setCond_cond_self]⟩
  · cases hu.symm.trans hstep
    exact ⟨c, hstep'.trans hu'⟩
end

section
/-! The words of memory (20_memory.md R50, R58): what a write leaves, and that the words decide the cells of a canonical
memory (notes/assumptions/1.md). -/

namespace Sys2Proof.Machine

theorem memWrite_sameMemoryBut (a v : Word) (s : State) : SameMemoryBut [a] s (memWrite a v s) := fun _ ha =>
  get_set_other (List.ne_of_not_mem_cons ha) v s.mem

/-- A cell past the 65536 words is not listed. -/
theorem getByte_of_ge {m : Memory} (h : Memory.wf m) {k : Nat} (hk : 131072 ≤ k) :
    Memory.getByte k m = Memory.unlisted := by
  have hkey : ∀ c ∈ m, (c.1 != k) = true := fun c hc => by
    obtain ⟨hlt, -⟩ := h.2 c hc
    exact bne_iff_ne.mpr (by omega)
  have hremove : Memory.remove k m = m := List.filter_eq_self.mpr hkey
  rw [← hremove, getByte_remove_self]

/-- A word determines both of its cells. -/
theorem getByte_eq_of_get_eq {a : Word} {m m' : Memory} (h : Memory.get a m = Memory.get a m') :
    Memory.getByte (2 * a.toNat) m = Memory.getByte (2 * a.toNat) m' ∧
      Memory.getByte (2 * a.toNat + 1) m = Memory.getByte (2 * a.toNat + 1) m' := by
  have hhigh : Memory.getByte (2 * a.toNat) m = Memory.getByte (2 * a.toNat) m' := by
    simpa only [Memory.get, BitVec.extractLsb'_append_eq_left] using congrArg (BitVec.extractLsb' 8 8) h
  refine ⟨hhigh, ?_⟩
  rw [Memory.get, Memory.get, hhigh] at h
  exact (BitVec.append_right_inj _).mp h

end Sys2Proof.Machine

open Sys2Proof Sys2Proof.Machine

/-- Settles O10: the write is of the memory alone, and there of one word. -/
theorem memoryWriteStoresVerbatim : Obligations.MemoryWriteStoresVerbatim := by
  unfold Obligations.MemoryWriteStoresVerbatim
  intro a v s
  exact ⟨get_set_self a v s.mem, memWrite_sameMemoryBut a v s, fun _ _ _ => rfl, ⟨rfl, rfl, rfl, rfl⟩, ⟨rfl, rfl⟩⟩

/-- Settles O12: inside the 65536 words each cell is half of a word, and outside no cell is listed. -/
theorem canonicalMemoriesAreEqualWhenTheyReadAlike : Obligations.CanonicalMemoriesAreEqualWhenTheyReadAlike := by
  unfold Obligations.CanonicalMemoriesAreEqualWhenTheyReadAlike
  intro m m' hwf hwf' hread
  refine eq_of_getByte_eq hwf hwf' fun k => ?_
  by_cases hk : k < 131072
  · have ha : (BitVec.ofNat 16 (k / 2)).toNat = k / 2 := Nat.mod_eq_of_lt (by omega)
    obtain ⟨hhigh, hlow⟩ := getByte_eq_of_get_eq (hread (BitVec.ofNat 16 (k / 2)))
    rw [ha] at hhigh hlow
    obtain heven | hodd := Nat.mod_two_eq_zero_or_one k
    · rwa [show 2 * (k / 2) = k by omega] at hhigh
    · rwa [show 2 * (k / 2) + 1 = k by omega] at hlow
  · rw [getByte_of_ge hwf (by omega), getByte_of_ge hwf' (by omega)]
end

section
/-! The keyboard poll (20_memory.md R55 to R57): the words it stores, the words it leaves, the answer it takes. -/

namespace Sys2Proof.Machine

theorem zextByte_toNat (b : Byte) : (zextByte b).toNat = b.toNat := BitVec.toNat_setWidth_of_le (by decide)

theorem pollKeyboard_oneDrawTaken (s : State) : OneDrawTaken s (pollKeyboard s) := by
  intro n
  rw [← takeDraw_draw]
  cases hd : s.draw 0 with
  | noInput => rw [pollKeyboard_noInput hd]; rfl
  | input b => rw [pollKeyboard_input hd]; rfl

theorem pollKeyboard_sameRegs (s : State) : SameRegsBut [] s (pollKeyboard s) := by
  obtain ⟨hregs, -⟩ := pollKeyboard_frame s
  intro i hi _
  simp only [hregs]

theorem pollKeyboard_sameControl (s : State) : SameControl s (pollKeyboard s) := by
  obtain ⟨-, hcontrol⟩ := pollKeyboard_frame s
  exact hcontrol

/-- Without input a poll stores KBSR alone. -/
theorem pollKeyboard_sameMemory_of_noInput {s : State} (h : s.draw 0 = .noInput) :
    SameMemoryBut [s.config.kbsrAddr] s (pollKeyboard s) := by
  rw [pollKeyboard_noInput h]
  exact memWrite_sameMemoryBut _ _ s.takeDraw

/-- Whatever the answer, a poll stores KBSR and KBDR at most. -/
theorem pollKeyboard_sameMemory (s : State) :
    SameMemoryBut [s.config.kbsrAddr, s.config.kbdrAddr] s (pollKeyboard s) := by
  intro a ha
  simp only [List.mem_cons, List.not_mem_nil, or_false, not_or] at ha
  obtain ⟨hsr, hdr⟩ := ha
  cases hd : s.draw 0 with
  | noInput => exact pollKeyboard_sameMemory_of_noInput hd a (by simpa using hsr)
  | input b =>
    rw [pollKeyboard_input hd, memWrite_mem, memWrite_mem, get_set_other hdr, get_set_other hsr, takeDraw_mem]

theorem get_kbsr_pollKeyboard_of_noInput {s : State} (h : s.draw 0 = .noInput) :
    Memory.get s.config.kbsrAddr (pollKeyboard s).mem = Config.kbsrEmpty := by
  rw [pollKeyboard_noInput h, memWrite_mem, get_set_self]

theorem get_kbsr_pollKeyboard_of_input {s : State} {b : Byte} (h : s.draw 0 = .input b)
    (hne : s.config.kbsrAddr ≠ s.config.kbdrAddr) :
    Memory.get s.config.kbsrAddr (pollKeyboard s).mem = Config.kbsrReady := by
  rw [pollKeyboard_input h, memWrite_mem, memWrite_mem, get_set_other hne, get_set_self]

theorem get_kbdr_pollKeyboard_of_input {s : State} {b : Byte} (h : s.draw 0 = .input b) :
    Memory.get s.config.kbdrAddr (pollKeyboard s).mem = zextByte b := by
  rw [pollKeyboard_input h, memWrite_mem, get_set_self]

/-- A read of KBSR gives the word its own poll leaves there (20_memory.md R55). -/
theorem memRead_kbsr (s : State) :
    memRead s.config.kbsrAddr s = (Memory.get s.config.kbsrAddr (pollKeyboard s).mem, pollKeyboard s) := by
  rw [memRead, pollIfKbsr_kbsr]

/-- A read of any other address has no effect (20_memory.md R59). -/
theorem memRead_other {a : Word} {s : State} (h : a ≠ s.config.kbsrAddr) : memRead a s = (Memory.get a s.mem, s) := by
  rw [memRead, pollIfKbsr_other h]

end Sys2Proof.Machine

open Sys2Proof.Machine

/-- Settles O11: a read of KBSR is a poll followed by a plain read, any other read is plain. -/
theorem memoryReadPollsOnlyAtKbsr : Obligations.MemoryReadPollsOnlyAtKbsr := by
  unfold Obligations.MemoryReadPollsOnlyAtKbsr
  intro a s
  refine ⟨memRead_other, ?_⟩
  rintro rfl hne
  refine ⟨_, _, memRead_kbsr s, pollKeyboard_sameRegs s, pollKeyboard_sameControl s, pollKeyboard_oneDrawTaken s, rfl,
    fun hd => ⟨get_kbsr_pollKeyboard_of_noInput hd, pollKeyboard_sameMemory_of_noInput hd⟩, fun b hd => ?_⟩
  refine ⟨get_kbsr_pollKeyboard_of_input hd hne, ?_, pollKeyboard_sameMemory s⟩
  rw [get_kbdr_pollKeyboard_of_input hd, zextByte_toNat]
end

section
/-! What a step does to memory and the keyboard (20_memory.md R61, R65): it polls once when it reads KBSR, and otherwise
leaves both alone. A fetch at KBSR gives a halting word, so no step reads KBSR twice. -/

namespace Sys2Proof.Machine

section
variable {s t : State}

/-- A zero-extended byte, taken as an instruction, halts: its opcode is 0000. -/
theorem destOf_decode_zextByte (b : Byte) : destOf (decode (zextByte b)) = none := by
  have hopcode : opcodeOf (zextByte b) = 0#4 := by
    apply BitVec.eq_of_toNat_eq
    rw [opcodeOf_toNat, zextByte_toNat]
    exact Nat.div_eq_of_lt (Nat.lt_trans b.isLt (by decide))
  rw [decode, hopcode]
  rfl

/-- A word fetched at KBSR halts: it is one of the poll's stores, the byte if KBSR and KBDR are at one address. -/
theorem destOf_decode_fetched_of_pc_kbsr (h : s.pc = s.config.kbsrAddr) : destOf (decode s.fetched) = none := by
  rw [State.fetched, h, memRead_kbsr]
  cases hd : s.draw 0 with
  | noInput =>
    rw [get_kbsr_pollKeyboard_of_noInput hd]
    exact (by decide : destOf (decode Config.kbsrEmpty) = none)
  | input b =>
    by_cases hne : s.config.kbsrAddr = s.config.kbdrAddr
    · rw [hne, get_kbdr_pollKeyboard_of_input hd]
      exact destOf_decode_zextByte b
    · rw [get_kbsr_pollKeyboard_of_input hd hne]
      exact (by decide : destOf (decode Config.kbsrReady) = none)

/-- An LD's effective address, PC being the incremented one, as the statements write it. -/
theorem effectiveAddress_nextPc_eq_iff {pc off a : Word} :
    effectiveAddress (nextPc pc) off = a ↔ a.toNat = (pc.toNat + 1 + off.toNat) % 65536 := by
  rw [← BitVec.toNat_inj, effectiveAddress, nextPc, eq_comm]
  simp

/-- The address a step reads as data is the one it loads from. -/
theorem loadsFrom_iff {a : Word} : s.LoadsFrom a ↔ dataAddress (decode s.fetched) s.afterFetch = some a := by
  have hpc : s.afterFetch.pc = nextPc s.pc := setPc_pc _ _
  constructor
  · rintro ⟨dr, off, hdecode, ha⟩
    rw [hdecode, dataAddress, hpc, effectiveAddress_nextPc_eq_iff.mpr ha]
  · intro hdata
    cases hdecode : decode s.fetched with
    | ld dr off =>
      rw [hdecode, dataAddress, hpc] at hdata
      exact ⟨dr, off, hdecode, effectiveAddress_nextPc_eq_iff.mp (Option.some.inj hdata)⟩
    | _ => rw [hdecode] at hdata; cases hdata

theorem pollKeyboard_setPc (v : Word) (s : State) : pollKeyboard (s.setPc v) = (pollKeyboard s).setPc v := by
  cases hd : s.draw 0 with
  | noInput => rw [pollKeyboard_noInput hd, pollKeyboard_noInput (s := s.setPc v) hd]; rfl
  | input b => rw [pollKeyboard_input hd, pollKeyboard_input (s := s.setPc v) hd]; rfl

theorem afterFetch_of_pc_ne_kbsr (h : s.pc ≠ s.config.kbsrAddr) : s.afterFetch = s.setPc (nextPc s.pc) := by
  rw [State.afterFetch, pollIfKbsr_other h]

/-- A step that reads KBSR polls once, by its fetch or by its data read. -/
theorem afterReads_of_readsKbsr (h : s.ReadsKbsr) : s.afterReads = (pollKeyboard s).setPc (nextPc s.pc) := by
  by_cases hpc : s.pc = s.config.kbsrAddr
  · rw [State.afterReads, afterDataRead_of_destOf_none (destOf_decode_fetched_of_pc_kbsr hpc), State.afterFetch,
      pollIfKbsr, if_pos hpc]
  · have hdata := loadsFrom_iff.mp (h.resolve_left hpc)
    rw [State.afterReads, afterDataRead, hdata, afterFetch_of_pc_ne_kbsr hpc, ← pollKeyboard_setPc]
    exact pollIfKbsr_kbsr (s.setPc (nextPc s.pc))

/-- A step that does not read KBSR polls nowhere. -/
theorem afterReads_of_not_readsKbsr (h : ¬ s.ReadsKbsr) : s.afterReads = s.setPc (nextPc s.pc) := by
  obtain ⟨hpc, hload⟩ := not_or.mp h
  rw [loadsFrom_iff] at hload
  rw [← afterFetch_of_pc_ne_kbsr hpc, State.afterReads, afterDataRead]
  split
  · next a hdata =>
    rw [afterFetch_of_pc_ne_kbsr hpc] at hdata hload ⊢
    exact pollIfKbsr_other fun ha => hload (ha ▸ hdata)
  · rfl

/-- After its reads a step changes neither memory nor the keyboard's answers. -/
theorem step_mem_keyboard (h : step s = .next t) :
    t.mem = s.afterReads.mem ∧ t.kbDraws = s.afterReads.kbDraws ∧ t.kbPolls = s.afterReads.kbPolls := by
  obtain ⟨-, ⟨-, rfl⟩ | ⟨dr, v, -, rfl⟩⟩ := step_cases h
  · exact ⟨rfl, rfl, rfl⟩
  · exact ⟨rfl, rfl, rfl⟩

/-- A step that reads KBSR leaves memory and the answers as one poll does. -/
theorem step_mem_keyboard_of_readsKbsr (h : step s = .next t) (hreads : s.ReadsKbsr) :
    t.mem = (pollKeyboard s).mem ∧ OneDrawTaken s t := by
  obtain ⟨hmem, hdraws, hpolls⟩ := step_mem_keyboard h
  rw [afterReads_of_readsKbsr hreads] at hmem hdraws hpolls
  exact ⟨hmem, fun n => (draw_congr hdraws hpolls n).trans (pollKeyboard_oneDrawTaken s n)⟩

/-- A step that does not read KBSR leaves memory and the answers alone. -/
theorem step_mem_keyboard_of_not_readsKbsr (h : step s = .next t) (hreads : ¬ s.ReadsKbsr) :
    t.mem = s.mem ∧ SameKeyboard s t := by
  obtain ⟨hmem, hdraws, hpolls⟩ := step_mem_keyboard h
  rw [afterReads_of_not_readsKbsr hreads] at hmem hdraws hpolls
  exact ⟨hmem, hdraws, hpolls⟩

end

end Sys2Proof.Machine

open Sys2Proof.Machine

/-- Settles O31: the step either polls once or leaves memory and the keyboard alone. -/
theorem memoryChangesOnlyByAKeyboardPoll : Obligations.MemoryChangesOnlyByAKeyboardPoll := by
  unfold Obligations.MemoryChangesOnlyByAKeyboardPoll
  intro s t hstep
  by_cases hreads : s.ReadsKbsr
  · obtain ⟨hmem, htaken⟩ := step_mem_keyboard_of_readsKbsr hstep hreads
    refine ⟨?_, fun _ => htaken, fun hnot => absurd hreads hnot⟩
    rw [SameMemoryBut, hmem]
    exact pollKeyboard_sameMemory s
  · obtain ⟨hmem, hkeyboard⟩ := step_mem_keyboard_of_not_readsKbsr hstep hreads
    have hsame : ∀ a, Memory.get a t.mem = Memory.get a s.mem := fun a => by rw [hmem]
    exact ⟨fun a _ => hsame a, fun hyes => absurd hyes hreads, fun _ => ⟨fun a _ => hsame a, hkeyboard⟩⟩

/-- Settles O33: the LD's poll has stored the byte at KBDR, and a fetch there is a plain read. -/
theorem nextFetchSeesThePollStores : Obligations.NextFetchSeesThePollStores := by
  unfold Obligations.NextFetchSeesThePollStores
  intro s t b hvalid _ hload hdraw hpc hstep
  obtain ⟨hne, -⟩ := hvalid
  obtain ⟨hmem, -⟩ := step_mem_keyboard_of_readsKbsr hstep (.inr hload)
  have hplain : t.pc ≠ t.config.kbsrAddr := by rw [hpc, step_config hstep]; exact hne.symm
  rw [State.fetched, memRead_other hplain, hpc, hmem, get_kbdr_pollKeyboard_of_input hdraw, zextByte_toNat]
end

section
/-! The Loader (20_memory.md R62, R63): the stream gives its words back, and they are stored from the origin on. -/

namespace Sys2Proof.Machine

/-- The words of a big-endian stream, a trailing odd byte ignored (decision D25). -/
theorem wordsOfStream_streamOf_append (ws : List Word) {odd : List Byte} (h : odd.length ≤ 1) :
    wordsOfStream (streamOf ws ++ odd) = ws := by
  induction ws with
  | nil =>
    match odd, h with
    | [], _ => rfl
    | [_], _ => rfl
  | cons w ws ih =>
    rw [streamOf, List.flatMap_cons, ← streamOf, List.append_assoc]
    simp only [List.cons_append, List.nil_append, wordsOfStream, ih, word_bytes]

/-- After the stores each address from `addr` on reads its word, and past them or below `addr` what it read before; what
would go past 0xFFFF is stored nowhere (decision D8). -/
theorem get_storeWords (a : Word) (addr : Nat) (ws : List Word) (s : State) :
    Memory.get a (storeWords addr ws s).mem =
      if addr ≤ a.toNat then ws.getD (a.toNat - addr) (Memory.get a s.mem) else Memory.get a s.mem := by
  have hword := a.isLt
  induction ws generalizing addr s with
  | nil => simp [storeWords]
  | cons w ws ih =>
    rw [storeWords]
    split
    · next haddr =>
      have hstored : a = BitVec.ofNat 16 addr ↔ a.toNat = addr := by
        rw [← BitVec.toNat_inj, BitVec.toNat_ofNat, Nat.mod_eq_of_lt haddr]
      simp only [ih, memWrite_mem, get_set, hstored]
      obtain hlt | heq | hgt := Nat.lt_trichotomy a.toNat addr
      · simp [Nat.not_le.mpr hlt, hlt.ne, show ¬ addr + 1 ≤ a.toNat by omega]
      · simp [heq]
      · simp [hgt.ne', hgt.le, show addr + 1 ≤ a.toNat by omega,
          show a.toNat - addr = a.toNat - (addr + 1) + 1 by omega]
    · next haddr => rw [if_neg (by omega)]

theorem loadImage_streamOf (origin : Word) (ws : List Word) {odd : List Byte} (h : odd.length ≤ 1) (s : State) :
    loadImage (streamOf (origin :: ws) ++ odd) s = .ok (storeWords origin.toNat ws s) := by
  rw [loadImage, wordsOfStream_streamOf_append _ h]

end Sys2Proof.Machine

open Sys2Proof.Machine

/-- Settles O44: the words are stored from the origin on, over a memory that reads zero everywhere. -/
theorem loaderPlacesTheImageAtItsOrigin : Obligations.LoaderPlacesTheImageAtItsOrigin := by
  unfold Obligations.LoaderPlacesTheImageAtItsOrigin
  intro c kb origin ws odd hodd
  refine ⟨(storeWords origin.toNat ws (State.created c kb)).start, ?_, fun a => ?_⟩
  · rw [boot, loadImage_streamOf origin ws hodd]
    rfl
  · have hzero : Memory.get a (State.created c kb).mem = 0#16 := get_nil a
    rw [State.start, setPc_mem, get_storeWords, hzero]
end

section
/-! The encoder's formats (30_encoding.md R82): the fields a packed word gives back, and every word as a packed one. -/

namespace Sys2Proof

/-! ### The fields of a packed word -/

section
variable (op : BitVec 4) (dr sr1 sr2 : RegField) (unused : BitVec 2) (imm5 : BitVec 5) (off9 : BitVec 9)
  (payload : BitVec 12)

@[simp] theorem opcodeOf_packOPR : opcodeOf (packOPR op dr sr1 unused sr2) = op := by
  apply BitVec.eq_of_toNat_eq
  rw [opcodeOf_toNat, packOPR_toNat]
  omega

@[simp] theorem drOf_packOPR : drOf (packOPR op dr sr1 unused sr2) = dr := by
  apply BitVec.eq_of_toNat_eq
  rw [drOf_toNat, packOPR_toNat]
  omega

@[simp] theorem sr1Of_packOPR : sr1Of (packOPR op dr sr1 unused sr2) = sr1 := by
  apply BitVec.eq_of_toNat_eq
  rw [sr1Of_toNat, packOPR_toNat]
  omega

@[simp] theorem modeOf_packOPR : modeOf (packOPR op dr sr1 unused sr2) = false := by
  rw [modeOf_eq, packOPR_toNat, decide_eq_false_iff_not]
  omega

@[simp] theorem sr2Of_packOPR : sr2Of (packOPR op dr sr1 unused sr2) = sr2 := by
  apply BitVec.eq_of_toNat_eq
  rw [sr2Of_toNat, packOPR_toNat]
  omega

@[simp] theorem opcodeOf_packOPI : opcodeOf (packOPI op dr sr1 imm5) = op := by
  apply BitVec.eq_of_toNat_eq
  rw [opcodeOf_toNat, packOPI_toNat]
  omega

@[simp] theorem drOf_packOPI : drOf (packOPI op dr sr1 imm5) = dr := by
  apply BitVec.eq_of_toNat_eq
  rw [drOf_toNat, packOPI_toNat]
  omega

@[simp] theorem sr1Of_packOPI : sr1Of (packOPI op dr sr1 imm5) = sr1 := by
  apply BitVec.eq_of_toNat_eq
  rw [sr1Of_toNat, packOPI_toNat]
  omega

@[simp] theorem modeOf_packOPI : modeOf (packOPI op dr sr1 imm5) = true := by
  rw [modeOf_eq, packOPI_toNat, decide_eq_true_iff]
  omega

@[simp] theorem setWidth_packOPI : (packOPI op dr sr1 imm5).setWidth 5 = imm5 := BitVec.setWidth_append_eq_right

@[simp] theorem opcodeOf_packPCR : opcodeOf (packPCR dr off9) = 0b0010#4 := by
  apply BitVec.eq_of_toNat_eq
  rw [opcodeOf_toNat, packPCR_toNat]
  simp only [BitVec.toNat_ofNat]
  omega

@[simp] theorem drOf_packPCR : drOf (packPCR dr off9) = dr := by
  apply BitVec.eq_of_toNat_eq
  rw [drOf_toNat, packPCR_toNat]
  omega

@[simp] theorem setWidth_packPCR : (packPCR dr off9).setWidth 9 = off9 := BitVec.setWidth_append_eq_right

@[simp] theorem opcodeOf_packUNI : opcodeOf (packUNI op payload) = op := by
  apply BitVec.eq_of_toNat_eq
  rw [opcodeOf_toNat, packUNI_toNat]
  omega

end

/-! ### Every word is a packed one -/

section
variable {w : Word}

theorem eq_packOPR (h : modeOf w = false) :
    w = packOPR (opcodeOf w) (drOf w) (sr1Of w) (w.extractLsb' 3 2) (sr2Of w) := by
  rw [modeOf_eq, decide_eq_false_iff_not] at h
  apply BitVec.eq_of_toNat_eq
  rw [packOPR_toNat, opcodeOf_toNat, drOf_toNat, sr1Of_toNat, sr2Of_toNat, BitVec.extractLsb'_toNat,
    Nat.shiftRight_eq_div_pow]
  omega

theorem eq_packOPI (h : modeOf w = true) : w = packOPI (opcodeOf w) (drOf w) (sr1Of w) (w.setWidth 5) := by
  rw [modeOf_eq, decide_eq_true_iff] at h
  apply BitVec.eq_of_toNat_eq
  rw [packOPI_toNat, opcodeOf_toNat, drOf_toNat, sr1Of_toNat, BitVec.toNat_setWidth]
  omega

theorem eq_packPCR (h : w.toNat / 4096 = 2) : w = packPCR (drOf w) (w.setWidth 9) := by
  apply BitVec.eq_of_toNat_eq
  rw [packPCR_toNat, drOf_toNat, BitVec.toNat_setWidth]
  omega

variable (w) in
theorem eq_packUNI : w = packUNI (opcodeOf w) (w.setWidth 12) := by
  apply BitVec.eq_of_toNat_eq
  rw [packUNI_toNat, opcodeOf_toNat, BitVec.toNat_setWidth]
  omega

end

/-! ### The immediates (30_encoding.md R84) -/

theorem imm5Of_eq (w : Word) : imm5Of w = (w.setWidth 5).signExtend 16 := sext_eq_signExtend w (by decide) (by decide)

theorem off9Of_eq (w : Word) : off9Of w = (w.setWidth 9).signExtend 16 := sext_eq_signExtend w (by decide) (by decide)

/-- Truncation undoes sign extension. -/
theorem setWidth_signExtend {n : Nat} (hn : n ≤ 16) (x : BitVec n) : (x.signExtend 16).setWidth n = x := by
  apply BitVec.eq_of_getLsbD_eq
  intro i hi
  rw [BitVec.getLsbD_setWidth, BitVec.getLsbD_signExtend]
  simp [hi, show i < 16 by omega]

/-- Sign extension undoes truncation exactly for the values that fit the narrower width. -/
theorem signExtend_setWidth_eq_iff {n : Nat} (hn : 1 ≤ n) (hn16 : n ≤ 16) {v : Word} :
    (v.setWidth n).signExtend 16 = v ↔ -2 ^ (n - 1) ≤ v.toInt ∧ v.toInt ≤ 2 ^ (n - 1) - 1 := by
  constructor
  · intro h
    rw [← h, BitVec.toInt_signExtend_of_le hn16]
    exact ⟨BitVec.le_toInt _, BitVec.toInt_le⟩
  · rintro ⟨hlo, hhi⟩
    apply BitVec.eq_of_toInt_eq
    rw [BitVec.toInt_signExtend_of_le hn16, ← BitVec.signExtend_eq_setWidth_of_le v hn16]
    exact BitVec.toInt_ofInt_eq_self hn hlo (Int.lt_of_le_sub_one hhi)

theorem imm5InRange_iff (imm : Word) : imm5InRange imm = true ↔ (imm.setWidth 5).signExtend 16 = imm := by
  rw [imm5InRange, decide_eq_true_iff]
  exact (signExtend_setWidth_eq_iff (n := 5) (by decide) (by decide)).symm

theorem off9InRange_iff (off : Word) : off9InRange off = true ↔ (off.setWidth 9).signExtend 16 = off := by
  rw [off9InRange, decide_eq_true_iff]
  exact (signExtend_setWidth_eq_iff (n := 9) (by decide) (by decide)).symm

@[simp] theorem setWidth_imm5Of (w : Word) : (imm5Of w).setWidth 5 = w.setWidth 5 := by
  rw [imm5Of_eq, setWidth_signExtend (by decide)]

@[simp] theorem setWidth_off9Of (w : Word) : (off9Of w).setWidth 9 = w.setWidth 9 := by
  rw [off9Of_eq, setWidth_signExtend (by decide)]

@[simp] theorem imm5InRange_imm5Of (w : Word) : imm5InRange (imm5Of w) = true := by
  rw [imm5InRange_iff, setWidth_imm5Of, imm5Of_eq]

@[simp] theorem off9InRange_off9Of (w : Word) : off9InRange (off9Of w) = true := by
  rw [off9InRange_iff, setWidth_off9Of, off9Of_eq]

end Sys2Proof

open Sys2Proof

/-- Settles O1: each format gives back the fields packed into it, and an immediate in range survives its truncation. -/
theorem decodeEncodeRoundTrip : Obligations.DecodeEncodeRoundTrip := by
  unfold Obligations.DecodeEncodeRoundTrip
  intro i hwf
  cases i with
  | addReg dr sr1 sr2 => simp [encode, decode]
  | addImm dr sr1 imm =>
    have himm : (imm.setWidth 5).signExtend 16 = imm := (imm5InRange_iff imm).mp hwf
    simp [encode, decode, imm5Of_eq, himm]
  | andReg dr sr1 sr2 => simp [encode, decode]
  | andImm dr sr1 imm =>
    have himm : (imm.setWidth 5).signExtend 16 = imm := (imm5InRange_iff imm).mp hwf
    simp [encode, decode, imm5Of_eq, himm]
  | ld dr off =>
    have hoff : (off.setWidth 9).signExtend 16 = off := (off9InRange_iff off).mp hwf
    simp [encode, decode, off9Of_eq, hoff]
  | _ => rfl
end

section
/-! What the decoder gives on every word, form by form (30_encoding.md R86 to R90), and what its instruction says back
about the word: the row that covers it and the bits that were read. -/

namespace Sys2Proof

open Machine (IsExecuting haltingInstrs readBits)

/-! ### The fields as arithmetic on the word's number -/

theorem drOf_eq (w : Word) : drOf w = BitVec.ofNat 3 (w.toNat / 512) := by
  apply BitVec.eq_of_toNat_eq
  rw [drOf_toNat, BitVec.toNat_ofNat]

theorem sr1Of_eq (w : Word) : sr1Of w = BitVec.ofNat 3 (w.toNat / 64) := by
  apply BitVec.eq_of_toNat_eq
  rw [sr1Of_toNat, BitVec.toNat_ofNat]

theorem sr2Of_eq (w : Word) : sr2Of w = BitVec.ofNat 3 w.toNat := by
  apply BitVec.eq_of_toNat_eq
  rw [sr2Of_toNat, BitVec.toNat_ofNat]

theorem imm5Of_eq_ofInt (w : Word) :
    imm5Of w = BitVec.ofInt 16 (if w.toNat % 32 < 16 then w.toNat % 32 else w.toNat % 32 - 32) := by
  rw [imm5Of_eq, BitVec.signExtend, BitVec.toInt_eq_toNat_cond, BitVec.toNat_setWidth]
  congr 1
  split <;> split <;> omega

theorem off9Of_eq_ofInt (w : Word) :
    off9Of w = BitVec.ofInt 16 (if w.toNat % 512 < 256 then w.toNat % 512 else w.toNat % 512 - 512) := by
  rw [off9Of_eq, BitVec.signExtend, BitVec.toInt_eq_toNat_cond, BitVec.toNat_setWidth]
  congr 1
  split <;> split <;> omega

theorem isExecuting_iff_opcodeOf (w : Word) :
    IsExecuting w ↔ opcodeOf w = 0b0001#4 ∨ opcodeOf w = 0b0010#4 ∨ opcodeOf w = 0b0101#4 := by
  simp only [← BitVec.toNat_inj, opcodeOf_toNat, BitVec.toNat_ofNat]

/-! ### The form a word decodes to -/

section
variable {w : Word}

theorem modeOf_of_odd (h : w.toNat / 32 % 2 = 1) : modeOf w = true := by simp [modeOf_eq, h]

theorem modeOf_of_even (h : w.toNat / 32 % 2 = 0) : modeOf w = false := by simp [modeOf_eq, h]

theorem decode_addImm (hop : w.toNat / 4096 = 1) (hmode : w.toNat / 32 % 2 = 1) :
    decode w = .addImm (drOf w) (sr1Of w) (imm5Of w) := by
  simp [decode_add hop, modeOf_of_odd hmode]

theorem decode_addReg (hop : w.toNat / 4096 = 1) (hmode : w.toNat / 32 % 2 = 0) :
    decode w = .addReg (drOf w) (sr1Of w) (sr2Of w) := by
  simp [decode_add hop, modeOf_of_even hmode]

theorem decode_andImm (hop : w.toNat / 4096 = 5) (hmode : w.toNat / 32 % 2 = 1) :
    decode w = .andImm (drOf w) (sr1Of w) (imm5Of w) := by
  simp [decode_and hop, modeOf_of_odd hmode]

theorem decode_andReg (hop : w.toNat / 4096 = 5) (hmode : w.toNat / 32 % 2 = 0) :
    decode w = .andReg (drOf w) (sr1Of w) (sr2Of w) := by
  simp [decode_and hop, modeOf_of_even hmode]

/-- A halting word decodes as its opcode does with an all-zero payload. -/
theorem decode_eq_decode_packUNI (h : ¬ IsExecuting w) : decode w = decode (packUNI (opcodeOf w) 0#12) := by
  obtain ⟨hadd, hld, hand⟩ : (opcodeOf w).toNat ≠ 1 ∧ (opcodeOf w).toNat ≠ 2 ∧ (opcodeOf w).toNat ≠ 5 := by
    simpa [opcodeOf_toNat, IsExecuting] using h
  unfold decode
  rw [opcodeOf_packUNI]
  split
  case h_2 hop => exact absurd hop hadd
  case h_3 hop => exact absurd hop hld
  case h_6 hop => exact absurd hop hand
  all_goals rfl

/-- A halting word decodes to a halting instruction, whose encoding is the word's opcode. -/
theorem decode_of_not_isExecuting (h : ¬ IsExecuting w) :
    decode w ∈ haltingInstrs ∧ encode (decode w) = packUNI (opcodeOf w) 0#12 := by
  have hopcodes : ∀ op : BitVec 4, ¬ (op = 0b0001#4 ∨ op = 0b0010#4 ∨ op = 0b0101#4) →
      decode (packUNI op 0#12) ∈ haltingInstrs ∧
        encode (decode (packUNI op 0#12)) = packUNI op 0#12 := by decide
  rw [decode_eq_decode_packUNI h]
  exact hopcodes _ (mt (isExecuting_iff_opcodeOf w).mpr h)

end

/-- The six forms of R86, each with the opcode and mode bit that select it. -/
theorem form_cases (w : Word) :
    (w.toNat / 4096 = 1 ∧ w.toNat / 32 % 2 = 1) ∨ (w.toNat / 4096 = 1 ∧ w.toNat / 32 % 2 = 0) ∨
    (w.toNat / 4096 = 5 ∧ w.toNat / 32 % 2 = 1) ∨ (w.toNat / 4096 = 5 ∧ w.toNat / 32 % 2 = 0) ∨
    w.toNat / 4096 = 2 ∨ ¬ IsExecuting w := by
  unfold IsExecuting
  omega

/-! ### The bits that were read -/

section
variable {w : Word}

theorem and_opcodeMask (w : Word) : w &&& 0xF000#16 = packUNI (opcodeOf w) 0#12 := by
  have hmask : 0xF000#16 = BitVec.allOnes 4 ++ 0#12 := rfl
  conv_lhs => rw [eq_packUNI w, hmask]
  refine BitVec.and_append.trans ?_
  rw [BitVec.and_allOnes, BitVec.and_zero, packUNI]

theorem and_registerMask (h : modeOf w = false) :
    w &&& 0xFFE7#16 = packOPR (opcodeOf w) (drOf w) (sr1Of w) 0#2 (sr2Of w) := by
  have hmask : 0xFFE7#16 =
      BitVec.allOnes 4 ++ BitVec.allOnes 3 ++ BitVec.allOnes 3 ++ 1#1 ++ 0#2 ++ BitVec.allOnes 3 := rfl
  conv_lhs => rw [eq_packOPR h, hmask]
  refine BitVec.and_append.trans ?_
  rw [BitVec.and_append, BitVec.and_append, BitVec.and_append, BitVec.and_append]
  simp only [BitVec.and_allOnes, BitVec.and_zero, BitVec.zero_and, packOPR]

theorem opcodeOf_eq {op : BitVec 4} (h : w.toNat / 4096 = op.toNat) : opcodeOf w = op :=
  BitVec.eq_of_toNat_eq ((opcodeOf_toNat w).trans h)

theorem readBits_of_immediate (hop : w.toNat / 4096 = 1 ∨ w.toNat / 4096 = 5) (hmode : w.toNat / 32 % 2 = 1) :
    readBits w = 0xFFFF#16 := by
  rw [readBits, if_pos hop, if_pos hmode]

theorem readBits_of_register (hop : w.toNat / 4096 = 1 ∨ w.toNat / 4096 = 5) (hmode : w.toNat / 32 % 2 = 0) :
    readBits w = 0xFFE7#16 := by
  rw [readBits, if_pos hop, if_neg (by omega)]

theorem readBits_of_ld (hop : w.toNat / 4096 = 2) : readBits w = 0xFFFF#16 := by
  rw [readBits, if_neg (by omega), if_pos hop]

theorem readBits_of_not_isExecuting (h : ¬ IsExecuting w) : readBits w = 0xF000#16 := by
  unfold IsExecuting at h
  rw [readBits, if_neg (by omega), if_neg (by omega)]

end

/-- The encoder gives back the word, with the bits that were not read as zero. -/
theorem encode_decode (w : Word) : encode (decode w) = w &&& readBits w := by
  have hfull : w &&& 0xFFFF#16 = w := BitVec.and_allOnes
  obtain ⟨hop, hmode⟩ | ⟨hop, hmode⟩ | ⟨hop, hmode⟩ | ⟨hop, hmode⟩ | hop | hhalt := form_cases w
  · rw [decode_addImm hop hmode, readBits_of_immediate (.inl hop) hmode, hfull, encode, setWidth_imm5Of,
      ← opcodeOf_eq (op := 0b0001#4) hop, ← eq_packOPI (modeOf_of_odd hmode)]
  · rw [decode_addReg hop hmode, readBits_of_register (.inl hop) hmode, encode, ← opcodeOf_eq (op := 0b0001#4) hop,
      and_registerMask (modeOf_of_even hmode)]
  · rw [decode_andImm hop hmode, readBits_of_immediate (.inr hop) hmode, hfull, encode, setWidth_imm5Of,
      ← opcodeOf_eq (op := 0b0101#4) hop, ← eq_packOPI (modeOf_of_odd hmode)]
  · rw [decode_andReg hop hmode, readBits_of_register (.inr hop) hmode, encode, ← opcodeOf_eq (op := 0b0101#4) hop,
      and_registerMask (modeOf_of_even hmode)]
  · rw [decode_ld hop, readBits_of_ld hop, hfull, encode, setWidth_off9Of, ← eq_packPCR hop]
  · obtain ⟨-, hencode⟩ := decode_of_not_isExecuting hhalt
    rw [hencode, readBits_of_not_isExecuting hhalt, and_opcodeMask]

/-! ### The opcode table -/

theorem row_mem_opcodeTable (i : Instr) : i.row ∈ opcodeTable := by
  cases i <;> exact List.mem_of_elem_eq_true rfl

/-- The decoded instruction's row covers the word. -/
theorem row_decode_covers (w : Word) : (decode w).row.covers w = true := by
  obtain ⟨hop, hmode⟩ | ⟨hop, hmode⟩ | ⟨hop, hmode⟩ | ⟨hop, hmode⟩ | hop | hhalt := form_cases w
  · rw [decode_addImm hop hmode]
    exact Laws.EncodesRow.covers_mode hop hmode (by decide)
  · rw [decode_addReg hop hmode]
    exact Laws.EncodesRow.covers_mode hop hmode (by decide)
  · rw [decode_andImm hop hmode]
    exact Laws.EncodesRow.covers_mode hop hmode (by decide)
  · rw [decode_andReg hop hmode]
    exact Laws.EncodesRow.covers_mode hop hmode (by decide)
  · rw [decode_ld hop]
    exact Laws.EncodesRow.covers_opcode hop (by decide)
  · have hrows : ∀ i ∈ haltingInstrs, i.row.mask = 0xF000#16 ∧ i.row.pattern = encode i := by decide
    obtain ⟨hmem, hencode⟩ := decode_of_not_isExecuting hhalt
    obtain ⟨hmask, hpattern⟩ := hrows _ hmem
    rw [OpcodeRow.covers, hmask, hpattern, hencode, and_opcodeMask, beq_self_eq_true]

/-- Two rows of the table that cover one word are the same: their patterns would agree on the bits both masks keep. -/
theorem row_eq_of_covers {w : Word} {r r' : OpcodeRow} (hr : r ∈ opcodeTable) (hr' : r' ∈ opcodeTable)
    (h : r.covers w = true) (h' : r'.covers w = true) : r = r' := by
  have hdisjoint : ∀ r ∈ opcodeTable, ∀ r' ∈ opcodeTable,
      r.pattern &&& r'.mask = r'.pattern &&& r.mask → r = r' := by decide
  rw [OpcodeRow.covers, beq_iff_eq] at h h'
  apply hdisjoint r hr r' hr'
  rw [← h, ← h', BitVec.and_assoc, BitVec.and_assoc, BitVec.and_comm r.mask]

end Sys2Proof

open Sys2Proof

/-- Settles O2: the fields are arithmetic on the word's number, and the decoder selects opcode by opcode. -/
theorem decodeSelectsFormAndFields : Obligations.DecodeSelectsFormAndFields := by
  unfold Obligations.DecodeSelectsFormAndFields
  intro w
  simp only [← drOf_eq, ← sr1Of_eq, ← sr2Of_eq, ← imm5Of_eq_ofInt, ← off9Of_eq_ofInt]
  refine ⟨decode_addImm, decode_addReg, decode_andImm, decode_andReg, decode_ld, ?_⟩
  and_intros <;> intro hop <;> simp only [decode, opcodeOf_toNat, hop]

/-- Settles O3: the decoded instruction's row covers the word, and no two rows cover one word. -/
theorem exactlyOneTableRowCoversAWord : Obligations.ExactlyOneTableRowCoversAWord := by
  unfold Obligations.ExactlyOneTableRowCoversAWord
  refine ⟨by decide, fun w => ⟨row_mem_opcodeTable _, fun r hr => ⟨fun hcovers => ?_, ?_⟩⟩⟩
  · exact row_eq_of_covers hr (row_mem_opcodeTable _) hcovers (row_decode_covers w)
  · rintro rfl
    exact row_decode_covers w

/-- Settles O5: an executing form's immediate is a sign-extended field, a halting instruction has none. -/
theorem decodedImmediatesAreInRange : Obligations.DecodedImmediatesAreInRange := by
  unfold Obligations.DecodedImmediatesAreInRange
  intro w
  obtain ⟨hop, hmode⟩ | ⟨hop, hmode⟩ | ⟨hop, hmode⟩ | ⟨hop, hmode⟩ | hop | hhalt := form_cases w
  · rw [decode_addImm hop hmode]
    exact imm5InRange_imm5Of w
  · rw [decode_addReg hop hmode]
    rfl
  · rw [decode_andImm hop hmode]
    exact imm5InRange_imm5Of w
  · rw [decode_andReg hop hmode]
    rfl
  · rw [decode_ld hop]
    exact off9InRange_off9Of w
  · have hwf : ∀ i ∈ Machine.haltingInstrs, i.wf = true := by decide
    obtain ⟨hmem, -⟩ := decode_of_not_isExecuting hhalt
    exact hwf _ hmem

/-- Settles O4: the decoded instruction and the word's read bits determine each other, through the encoder. -/
theorem onlyReadBitsDecideTheInstruction : Obligations.OnlyReadBitsDecideTheInstruction := by
  unfold Obligations.OnlyReadBitsDecideTheInstruction
  have hroundTrip : ∀ w, decode (encode (decode w)) = decode w := fun w =>
    decodeEncodeRoundTrip (decode w) (decodedImmediatesAreInRange w)
  intro w v
  rw [← encode_decode, ← encode_decode]
  constructor
  · exact congrArg encode
  · intro hencode
    rw [← hroundTrip w, hencode, hroundTrip v]

/-- Settles O7: the decoder evaluated on the eight words. -/
theorem sampleWordsDecode : Obligations.SampleWordsDecode := by
  unfold Obligations.SampleWordsDecode
  decide
end

section
/-! Which steps halt (30_encoding.md R89, R90; 40_cycle.md R105): those whose instruction has no DR. -/

namespace Sys2Proof.Machine

theorem destOf_decode_of_not_isExecuting {w : Word} (h : ¬ IsExecuting w) : destOf (decode w) = none := by
  have hdest : ∀ i ∈ haltingInstrs, destOf i = none := by decide
  obtain ⟨hmem, -⟩ := decode_of_not_isExecuting h
  exact hdest _ hmem

end Sys2Proof.Machine

open Sys2Proof.Machine

/-- Settles O36: a step halts when the fetched instruction has no DR, and otherwise keeps run state and reason. -/
theorem stepHaltsExactlyOnUnimplementedOpcodes : Obligations.StepHaltsExactlyOnUnimplementedOpcodes := by
  unfold Obligations.StepHaltsExactlyOnUnimplementedOpcodes
  intro s t hstep
  obtain ⟨⟨hrun, -⟩, hcases⟩ := step_cases hstep
  obtain ⟨hrun', hreason', -, -⟩ := afterReads_control s
  obtain ⟨hdest, rfl⟩ | ⟨dr, v, hdest, rfl⟩ := hcases
  · have hhalt : ¬ IsExecuting s.fetched := fun hexec => by
      cases (destOf_decode_of_isExecuting hexec).symm.trans hdest
    exact ⟨iff_of_false (fun h => by cases h) hhalt, fun hexec => absurd hexec hhalt⟩
  · have hexec : IsExecuting s.fetched := by
      by_contra hhalt
      cases hdest.symm.trans (destOf_decode_of_not_isExecuting hhalt)
    exact ⟨iff_of_true (hrun'.trans hrun) hexec, fun _ => hreason'⟩
end

section
/-! The step as a total function on live states (40_cycle.md R101 to R104, R107): it executes the instruction fetched,
it exists exactly there, and it moves PC one further, wrapping. -/

namespace Sys2Proof.Machine

theorem nextPc_toNat (pc : Word) : (nextPc pc).toNat = (pc.toNat + 1) % 65536 := BitVec.toNat_add pc 1#16

@[simp] theorem afterReads_pc (s : State) : s.afterReads.pc = nextPc s.pc := by simp [State.pc, afterReads_regs]

/-- Every instruction answers a next state, in whatever state it is executed. -/
theorem exec_exists_next (i : Instr) (s : State) : ∃ t, exec i s = .next t := by
  obtain ⟨-, hhalt⟩ | ⟨dr, v, -, hwrite⟩ := exec_cases i s
  · exact ⟨_, hhalt⟩
  · exact ⟨_, hwrite.trans (writeBack_eq ..)⟩

section
variable {s t : State}

theorem step_exists_next_of_live (h : s.Live) : ∃ t, step s = .next t := by
  rw [step_of_live h]
  exact exec_exists_next _ _

/-- A halted machine has no step (notes/assumptions/11.md). -/
theorem step_of_halted (hfault : s.fault = none) (hrun : s.run = .halted) : step s = .fault .sequencerHalted := by
  rw [step, whenRunning, hfault, hrun]

theorem step_pc (h : step s = .next t) : t.pc = nextPc s.pc := by
  obtain ⟨-, ⟨-, rfl⟩ | ⟨dr, v, -, rfl⟩⟩ := step_cases h <;> simp

end

end Sys2Proof.Machine

open Sys2Proof.Machine

/-- Settles O24: the step is the execution of the fetched instruction after the fetch, whose read is plain away from
KBSR. -/
theorem stepRunsTheDecodedInstruction : Obligations.StepRunsTheDecodedInstruction := by
  unfold Obligations.StepRunsTheDecodedInstruction
  intro s hlive
  refine ⟨step_of_live hlive, fun i hpc hdecode => ?_⟩
  rw [step_of_live hlive, afterFetch_of_pc_ne_kbsr hpc, State.fetched, memRead_other hpc, hdecode, nextPc]

/-- Settles O25: a live state has a step, and whichever way it ends PC is the one the fetch wrote. -/
theorem everyStepAdvancesPcByOne : Obligations.EveryStepAdvancesPcByOne := by
  unfold Obligations.EveryStepAdvancesPcByOne
  intro s hlive
  obtain ⟨t, hstep⟩ := step_exists_next_of_live hlive
  refine ⟨t, hstep, ?_, ?_⟩
  · rw [step_pc hstep, nextPc_toNat]
  · rw [step_pc hstep]
    exact step_of_live hlive

/-- Settles O26: the guard lets only a live state through, and there every instruction has a next state. -/
theorem stepExistsExactlyWhileRunning : Obligations.StepExistsExactlyWhileRunning := by
  unfold Obligations.StepExistsExactlyWhileRunning
  intro s
  refine ⟨⟨?_, step_exists_next_of_live⟩, step_of_halted, fun i => step_of_fault⟩
  rintro ⟨t, hstep⟩
  obtain ⟨hlive, -⟩ := step_cases hstep
  exact hlive
end

section
/-! The flag code of a value read as a number (40_cycle.md R110, R112). -/

namespace Sys2Proof.Machine

/-- Bit 15 is the sign: it is set from 0x8000 on. -/
theorem getLsbD_15_iff (v : Word) : v.getLsbD 15 = true ↔ 0x8000 ≤ v.toNat := by
  rw [← BitVec.msb_eq_getLsbD_last, BitVec.msb_eq_decide, decide_eq_true_iff]

theorem condCode_flagOf (c : Config) (v : Word) : FlagOf c v (condCode c v) := by
  have hzero : v = 0x0000#16 ↔ v.toNat = 0 := BitVec.toNat_inj.symm
  refine ⟨fun h => ?_, fun ⟨hpos, hlt⟩ => ?_, fun h => ?_⟩
  · rw [condCode, if_pos (hzero.mpr h)]
  · rw [condCode, if_neg (by rw [hzero]; omega), if_neg (by rw [getLsbD_15_iff]; omega)]
  · rw [condCode, if_neg (by rw [hzero]; omega), if_pos ((getLsbD_15_iff v).mpr h)]

end Sys2Proof.Machine

open Sys2Proof.Machine

/-- Settles O28: the write-back sets COND from the value it wrote to DR, a halting word writes neither. -/
theorem condFollowsTheRegisterWritten : Obligations.CondFollowsTheRegisterWritten := by
  unfold Obligations.CondFollowsTheRegisterWritten
  intro s t hstep
  obtain ⟨-, ⟨hnone, rfl⟩ | ⟨dr, v, hdest, rfl⟩⟩ := step_cases hstep
  · refine ⟨fun dr hdest => ?_, fun _ => by simp⟩
    cases hnone.symm.trans hdest
  · refine ⟨fun dr' hdest' => ?_, fun hnone => ?_⟩
    · cases hdest.symm.trans hdest'
      simpa using condCode_flagOf s.config v
    · cases hdest.symm.trans hnone
end

section
/-! The fetch at KBSR (40_cycle.md R102, R108; decision D5): it polls, and what it reads halts. -/

namespace Sys2Proof.Machine

/-- The step at KBSR: the fetch polls, and the word it gives halts. -/
theorem step_of_pc_kbsr {s : State} (hlive : s.Live) (hpc : s.pc = s.config.kbsrAddr) :
    step s = .next (halt .unimplementedOpcode ((pollKeyboard s).setPc (nextPc s.pc))) := by
  obtain ⟨t, hstep⟩ := step_exists_next_of_live hlive
  have hnone := destOf_decode_fetched_of_pc_kbsr hpc
  obtain ⟨-, ⟨-, rfl⟩ | ⟨dr, v, hdest, -⟩⟩ := step_cases hstep
  · rw [hstep, afterReads_of_readsKbsr (.inl hpc)]
  · cases hnone.symm.trans hdest

end Sys2Proof.Machine

open Sys2Proof.Machine

/-- Settles O34: the step is one poll, the PC write and the halt. -/
theorem fetchAtKbsrHalts : Obligations.FetchAtKbsrHalts := by
  unfold Obligations.FetchAtKbsrHalts
  intro s hlive hvalid hpc
  obtain ⟨hne, -⟩ := hvalid
  have hstep := step_of_pc_kbsr hlive hpc
  refine ⟨_, hstep, rfl, rfl, step_pc hstep, ?_, pollKeyboard_oneDrawTaken s, step_fault hstep, step_config hstep,
    fun hd => ?_, fun b hd => ?_⟩
  · obtain ⟨hregs, -⟩ := pollKeyboard_frame s
    intro i hi hmem
    simp only [halt_regs, setPc_regs, hregs]
    exact Vector.getElem_set_ne (by decide) hi (Ne.symm (List.ne_of_not_mem_cons hmem))
  · exact ⟨get_kbsr_pollKeyboard_of_noInput hd, pollKeyboard_sameMemory_of_noInput hd⟩
  · have hbyte := congrArg BitVec.toNat (get_kbdr_pollKeyboard_of_input hd)
    exact ⟨get_kbsr_pollKeyboard_of_input hd hne, hbyte.trans (zextByte_toNat b), pollKeyboard_sameMemory s⟩
end

section
/-! Runs (40_cycle.md R105, R108, R109): PC advances by one each step, so a run that nothing else halts comes to KBSR,
where the fetch halts it. -/

namespace Sys2Proof.Machine

/-- How many steps PC is before KBSR. -/
def State.stepsToKbsr (s : State) : Nat := (s.config.kbsrAddr - s.pc).toNat

theorem stepsToKbsr_eq_zero_iff (s : State) : s.stepsToKbsr = 0 ↔ s.pc = s.config.kbsrAddr := by
  rw [State.stepsToKbsr]
  bv_omega

/-- A step from before KBSR comes one nearer to it. -/
theorem stepsToKbsr_step {s t : State} (h : step s = .next t) (hne : s.pc ≠ s.config.kbsrAddr) :
    t.stepsToKbsr + 1 = s.stepsToKbsr := by
  rw [State.stepsToKbsr, State.stepsToKbsr, step_config h, step_pc h, nextPc]
  bv_omega

/-- What a run ends in: HALTED by an unimplemented opcode, with no fault. -/
def State.HaltedNormally (s : State) : Prop :=
  s.run = .halted ∧ s.haltReason = some .unimplementedOpcode ∧ s.fault = none

/-- A step halts the machine normally or leaves a live state. -/
theorem step_haltedNormally_or_live {s t : State} (h : step s = .next t) : t.HaltedNormally ∨ t.Live := by
  obtain ⟨hrun, hreason⟩ | ⟨hrun, -⟩ := step_run_cases h
  · exact .inl ⟨hrun, hreason, step_fault h⟩
  · exact .inr ⟨hrun, step_fault h⟩

/-- A live machine halts, at the latest by its fetch at KBSR. -/
theorem run_haltedNormally (d : Nat) {s : State} (hlive : s.Live) (hd : s.stepsToKbsr = d) :
    ∃ n t, n ≤ d ∧ Host.Core.run Sys2Proof.core (n + 1) s = .next t ∧ t.HaltedNormally := by
  induction d generalizing s with
  | zero =>
    have hstep := step_of_pc_kbsr hlive ((stepsToKbsr_eq_zero_iff s).mp hd)
    exact ⟨0, _, le_rfl, run_succ_of_next hstep 0, rfl, rfl, step_fault hstep⟩
  | succ d ih =>
    obtain ⟨u, hstep⟩ := step_exists_next_of_live hlive
    obtain hhalted | hlive' := step_haltedNormally_or_live hstep
    · exact ⟨0, u, Nat.zero_le _, run_succ_of_next hstep 0, hhalted⟩
    · have hne : s.pc ≠ s.config.kbsrAddr := fun hpc => by
        rw [(stepsToKbsr_eq_zero_iff s).mpr hpc] at hd
        cases hd
      have hnear := stepsToKbsr_step hstep hne
      obtain ⟨n, t, hn, hrun, hhalted⟩ := ih hlive' (by omega)
      exact ⟨n + 1, t, by omega, (run_succ_of_next hstep _).trans hrun, hhalted⟩

end Sys2Proof.Machine

open Sys2Proof.Machine

/-- Settles O47, by induction on the number of steps. -/
theorem runsFetchConsecutiveAddresses : Obligations.RunsFetchConsecutiveAddresses := by
  unfold Obligations.RunsFetchConsecutiveAddresses
  intro n
  induction n with
  | zero =>
    intro s t hrun
    cases (run_zero s).symm.trans hrun
    exact (Nat.mod_eq_of_lt s.pc.isLt).symm
  | succ n ih =>
    intro s t hrun
    obtain ⟨u, hstep, hrest⟩ := step_of_run_succ hrun
    rw [ih u t hrest, step_pc hstep, nextPc_toNat]
    omega

/-- Settles O48: the distance to KBSR bounds the run. -/
theorem everyRunHaltsByKbsr : Obligations.EveryRunHaltsByKbsr := by
  unfold Obligations.EveryRunHaltsByKbsr
  intro s hlive
  obtain ⟨n, t, hn, hrun, hhalted⟩ := run_haltedNormally s.stepsToKbsr hlive rfl
  exact ⟨n + 1, t, Nat.le_add_left 1 n, Nat.succ_le_succ hn, hrun, hhalted⟩
end

section
/-! What the boot order leaves for the run to start from (70_reset_and_hazards.md R231, R233). -/

namespace Sys2Proof.Machine

/-- The Loader changes memory alone. -/
theorem storeWords_eq (addr : Nat) (ws : List Word) (s : State) : ∃ m, storeWords addr ws s = { s with mem := m } := by
  induction ws generalizing addr s with
  | nil => exact ⟨s.mem, rfl⟩
  | cons w ws ih =>
    rw [storeWords]
    split
    · exact ih (addr + 1) (memWrite (BitVec.ofNat 16 addr) w s)
    · exact ⟨s.mem, rfl⟩

/-- A booted machine is the created one with PC set, but for what the image put in memory. -/
theorem boot_eq_of_ok {c : Config} {kb : List KbDraw} {image : Option (List Byte)} {s : State}
    (h : boot c kb image = .ok s) : ∃ m, s = { (State.created c kb).start with mem := m } := by
  cases image with
  | none => cases h
  | some bytes =>
    rw [boot, loadImage] at h
    split at h
    · cases h
    · next origin words _ =>
      obtain ⟨m, hm⟩ := storeWords_eq origin.toNat words (State.created c kb)
      rw [hm] at h
      cases h
      exact ⟨m, rfl⟩

end Sys2Proof.Machine

open Sys2Proof Sys2Proof.Machine

/-- Settles O49: a booted machine starts live at 0x3000, 52736 steps before KBSR. -/
theorem everyBootedRunHaltsWithin52737Steps : Obligations.EveryBootedRunHaltsWithin52737Steps := by
  unfold Obligations.EveryBootedRunHaltsWithin52737Steps
  intro kb image s hboot
  obtain ⟨m, hs⟩ := boot_eq_of_ok hboot
  have hlive : s.Live := by rw [hs]; exact ⟨rfl, rfl⟩
  have hpc : s.pc = Config.startPc := by rw [hs]; rfl
  have hconfig : s.config = Config.spec := by rw [hs]; rfl
  have hdistance : (s.config.kbsrAddr - s.pc).toNat = 52736 := by rw [hconfig, hpc]; decide
  obtain ⟨n, t, -, hn, hrun, hhalt, hreason, -⟩ := everyRunHaltsByKbsr s hlive
  exact ⟨n, t, by omega, hrun, hhalt, hreason⟩
end

section
/-! ADD and AND (41_operate.md): what a write-back leaves behind, said once, and with it the result, flags and frame of
the four forms; the bits of an immediate in range. -/

namespace Sys2Proof

/-- The immediate read back from format OPI is the packed field's signed value (30_encoding.md R84). -/
@[simp] theorem imm5Of_packOPI (op : BitVec 4) (dr sr1 : RegField) (imm5 : BitVec 5) :
    imm5Of (packOPI op dr sr1 imm5) = BitVec.ofInt 16 imm5.toInt := by
  rw [imm5Of_eq, setWidth_packOPI, BitVec.signExtend]

/-- An immediate in range carries its sign in every bit from 5 on. -/
theorem getLsbD_of_imm5InRange {imm : Word} (h : imm5InRange imm = true) {i : Nat} (h5 : 5 ≤ i) (h16 : i < 16) :
    imm.getLsbD i = decide (imm.toInt < 0) := by
  obtain ⟨x, rfl⟩ : ∃ x : BitVec 5, x.signExtend 16 = imm := ⟨_, (imm5InRange_iff imm).mp h⟩
  rw [BitVec.getLsbD_signExtend, if_neg (by omega), BitVec.toInt_signExtend_of_le (by decide), ← BitVec.msb_eq_toInt]
  simp [h16]

/-- An immediate in range that is not negative is below 16 as a number. -/
theorem toNat_lt_of_imm5InRange {imm : Word} (h : imm5InRange imm = true) (hpos : 0 ≤ imm.toInt) : imm.toNat < 16 := by
  rw [imm5InRange, decide_eq_true_iff] at h
  rw [BitVec.toInt_eq_toNat_of_msb (by simpa [BitVec.msb_eq_toInt] using hpos)] at h
  omega

namespace Machine

/-- `r` is a completion of `s` that puts `v` into DR and its flag code into COND and leaves the rest unchanged
(40_cycle.md R110, R116). -/
def WritesBack (dr : RegField) (v : Word) (s : State) (r : Result) : Prop :=
  ∃ t, r = .next t ∧ t.gpr dr = v ∧ FlagOf s.config (t.gpr dr) t.cond ∧ OperateFrame dr s t

theorem writeBack_writesBack (dr : RegField) (v : Word) (s : State) : WritesBack dr v s (writeBack dr v s) := by
  refine ⟨_, writeBack_eq dr v s, by simp, by simpa using condCode_flagOf s.config v, fun i hi hmem => ?_,
    fun _ _ => rfl, ⟨rfl, rfl, rfl, rfl⟩, rfl, rfl⟩
  obtain ⟨hdr, hcond⟩ : i ≠ dr.toNat ∧ i ≠ 9 := by simpa using hmem
  simp only [setCond_regs, setGpr_regs]
  rw [Vector.getElem_set_ne _ _ hcond.symm, Vector.getElem_set_ne _ _ hdr.symm]

/-- ADD and AND in every form write back the ALU's result of the old values. -/
theorem operate_writesBack (op : AluOp) (dr sr1 : RegField) (o : Operand2) (s : State) :
    WritesBack dr (alu op (s.gpr sr1) (operand2Value o s)) s (operate op dr sr1 o s) := by
  rw [operate_eq]
  exact writeBack_writesBack dr _ s

section
variable (dr sr1 sr2 : RegField) (imm : Word) (s : State)

theorem exec_addReg_writesBack : WritesBack dr (s.gpr sr1 + s.gpr sr2) s (exec (.addReg dr sr1 sr2) s) :=
  operate_writesBack .add dr sr1 (.reg sr2) s

theorem exec_addImm_writesBack : WritesBack dr (s.gpr sr1 + imm) s (exec (.addImm dr sr1 imm) s) :=
  operate_writesBack .add dr sr1 (.imm imm) s

theorem exec_andReg_writesBack : WritesBack dr (s.gpr sr1 &&& s.gpr sr2) s (exec (.andReg dr sr1 sr2) s) :=
  operate_writesBack .and dr sr1 (.reg sr2) s

theorem exec_andImm_writesBack : WritesBack dr (s.gpr sr1 &&& imm) s (exec (.andImm dr sr1 imm) s) :=
  operate_writesBack .and dr sr1 (.imm imm) s

end

end Machine

end Sys2Proof

open Sys2Proof Sys2Proof.Machine

/-- Settles O13: the write-back of the sum, whose number is the sum modulo 2^16. -/
theorem addRegisterWritesTheSum : Obligations.AddRegisterWritesTheSum := by
  unfold Obligations.AddRegisterWritesTheSum
  intro dr sr1 sr2 unused s
  obtain ⟨t, hexec, hdr, hflag, hframe⟩ := exec_addReg_writesBack dr sr1 sr2 s
  refine ⟨by simp [decode], t, hexec, ?_, hflag, hframe⟩
  rw [hdr, BitVec.toNat_add]

/-- Settles O14: as for the register form, with the immediate as second operand. -/
theorem addImmediateWritesTheSum : Obligations.AddImmediateWritesTheSum := by
  unfold Obligations.AddImmediateWritesTheSum
  intro dr sr1 imm5 imm s
  obtain ⟨t, hexec, hdr, hflag, hframe⟩ := exec_addImm_writesBack dr sr1 imm s
  refine ⟨by simp [decode], t, hexec, ?_, hflag, hframe⟩
  rw [hdr, BitVec.toNat_add]

/-- Settles O15: the write-back of the conjunction, read bit by bit. -/
theorem andRegisterWritesTheConjunction : Obligations.AndRegisterWritesTheConjunction := by
  unfold Obligations.AndRegisterWritesTheConjunction
  intro dr sr1 sr2 unused s
  obtain ⟨t, hexec, hdr, hflag, hframe⟩ := exec_andReg_writesBack dr sr1 sr2 s
  refine ⟨by simp [decode], t, hexec, fun i _ => ?_, hflag, hframe⟩
  rw [hdr, BitVec.getLsbD_and]

/-- Settles O16: as for the register form, with the immediate as second operand. -/
theorem andImmediateWritesTheConjunction : Obligations.AndImmediateWritesTheConjunction := by
  unfold Obligations.AndImmediateWritesTheConjunction
  intro dr sr1 imm5 imm s
  obtain ⟨t, hexec, hdr, hflag, hframe⟩ := exec_andImm_writesBack dr sr1 imm s
  refine ⟨by simp [decode], t, hexec, fun i _ => ?_, hflag, hframe⟩
  rw [hdr, BitVec.getLsbD_and]

/-- Settles O17: the sum modulo 2^16 is the balanced residue of the sum of the signed values. -/
theorem addAgreesWithTwosComplement : Obligations.AddAgreesWithTwosComplement := by
  unfold Obligations.AddAgreesWithTwosComplement
  intro dr sr1 sr2 imm s
  obtain ⟨t, hexec, hdr, -⟩ := exec_addReg_writesBack dr sr1 sr2 s
  obtain ⟨t', hexec', hdr', -⟩ := exec_addImm_writesBack dr sr1 imm s
  refine ⟨⟨t, hexec, ?_⟩, t', hexec', ?_⟩
  · rw [hdr, BitVec.toInt_add]
  · rw [hdr', BitVec.toInt_add]

/-- Settles O18: below zero the immediate's high bits are ones, and from zero on DR is at most the immediate. -/
theorem andImmediateKeepsOrClearsTheHighBits : Obligations.AndImmediateKeepsOrClearsTheHighBits := by
  unfold Obligations.AndImmediateKeepsOrClearsTheHighBits
  intro dr sr1 imm s hrange
  obtain ⟨t, hexec, hdr, -⟩ := exec_andImm_writesBack dr sr1 imm s
  refine ⟨t, hexec, fun hneg i h5 h16 => ?_, fun hpos => ?_⟩
  · rw [hdr, BitVec.getLsbD_and, getLsbD_of_imm5InRange hrange h5 h16]
    simp [hneg]
  · rw [hdr, BitVec.toNat_and]
    exact Nat.lt_of_le_of_lt Nat.and_le_right (toNat_lt_of_imm5InRange hrange hpos)
end

section
/-! LD (42_load.md): it writes back the word its one read gives, in the state that read leaves; and the step that
fetches it away from KBSR, whose address counts from the next word. -/

namespace Sys2Proof

/-- The offset read back from format PCR is the packed field's signed value (30_encoding.md R84). -/
@[simp] theorem off9Of_packPCR (dr : RegField) (off9 : BitVec 9) :
    off9Of (packPCR dr off9) = BitVec.ofInt 16 off9.toInt := by
  rw [off9Of_eq, setWidth_packPCR, BitVec.signExtend]

theorem decode_packPCR (dr : RegField) (off9 : BitVec 9) :
    decode (packPCR dr off9) = .ld dr (BitVec.ofInt 16 off9.toInt) := by
  simp [decode]

namespace Machine

theorem SameControl.trans {s t u : State} (hst : SameControl s t) (htu : SameControl t u) : SameControl s u := by
  obtain ⟨hrun, hreason, hfault, hconfig⟩ := hst
  obtain ⟨hrun', hreason', hfault', hconfig'⟩ := htu
  exact ⟨hrun'.trans hrun, hreason'.trans hreason, hfault'.trans hfault, hconfig'.trans hconfig⟩

theorem SameControl.config_eq {s t : State} (h : SameControl s t) : t.config = s.config := by
  obtain ⟨-, -, -, hconfig⟩ := h
  exact hconfig

/-! ### The effective address (42_load.md R160 to R162) -/

theorem effectiveAddress_eq_iff {pc off ea : Word} :
    effectiveAddress pc off = ea ↔ ea.toNat = (pc.toNat + off.toNat) % 65536 := by
  rw [← BitVec.toNat_inj, effectiveAddress, BitVec.toNat_add, eq_comm]

/-- The address of an LD fetched at `pc`, with its offset as a signed number, counts from the next word. -/
theorem toNat_eq_nextPc_add_ofInt {pc ea : Word} {off : Int} (h : (ea.toNat : Int) = (pc.toNat + 1 + off) % 65536) :
    ea.toNat = ((nextPc pc).toNat + (BitVec.ofInt 16 off).toNat) % 65536 := by
  rw [nextPc_toNat, BitVec.toNat_ofInt]
  omega

/-! ### The execute phase -/

section
variable (dr : RegField) {off ea : Word} {s : State}

/-- LD writes back the word read, in the state the read leaves. -/
theorem exec_ld_writesBack (hea : ea.toNat = (s.pc.toNat + off.toNat) % 65536) :
    WritesBack dr (memRead ea s).1 (memRead ea s).2 (exec (.ld dr off) s) := by
  obtain rfl := effectiveAddress_eq_iff.mpr hea
  rw [exec, execLd_eq]
  exact writeBack_writesBack ..

/-- As `exec_ld_writesBack`, with the registers and the sequencer's state compared with those before the read. -/
theorem exec_ld_next (hea : ea.toNat = (s.pc.toNat + off.toNat) % 65536) :
    ∃ t, exec (.ld dr off) s = .next t ∧
      t.gpr dr = (memRead ea s).1 ∧ FlagOf s.config (t.gpr dr) t.cond ∧
      SameRegsBut [dr.toNat, 9] s t ∧ SameControl s t ∧
      SameMemoryBut [] (memRead ea s).2 t ∧ SameKeyboard (memRead ea s).2 t := by
  obtain ⟨t, hexec, hdr, hflag, hregs, hmem, hcontrol, hkeyboard⟩ := exec_ld_writesBack dr hea
  obtain ⟨hreadRegs, hreadControl⟩ : (memRead ea s).2.regs = s.regs ∧ SameControl s (memRead ea s).2 :=
    pollIfKbsr_frame ea s
  rw [hreadControl.config_eq] at hflag
  simp only [SameRegsBut, hreadRegs] at hregs
  exact ⟨t, hexec, hdr, hflag, hregs, hreadControl.trans hcontrol, hmem, hkeyboard⟩

end

/-! ### The step -/

section
variable {s : State} {dr : RegField} {off9 : BitVec 9}

/-- Away from KBSR the word at PC is the one fetched, and an LD there executes with PC one further. -/
theorem step_of_ld_at_pc (hlive : s.Live) (hpc : s.pc ≠ s.config.kbsrAddr)
    (hword : Memory.get s.pc s.mem = packPCR dr off9) :
    step s = exec (.ld dr (BitVec.ofInt 16 off9.toInt)) (s.setPc (nextPc s.pc)) := by
  rw [step_of_live hlive, afterFetch_of_pc_ne_kbsr hpc, State.fetched, memRead_other hpc, hword, decode_packPCR]

/-- The step of an LD that neither is fetched from KBSR nor reads it. -/
theorem step_ld_writesBack {ea : Word} (hlive : s.Live) (hpc : s.pc ≠ s.config.kbsrAddr)
    (hword : Memory.get s.pc s.mem = packPCR dr off9) (hea : (ea.toNat : Int) = (s.pc.toNat + 1 + off9.toInt) % 65536)
    (hne : ea ≠ s.config.kbsrAddr) :
    WritesBack dr (Memory.get ea s.mem) (s.setPc (nextPc s.pc)) (step s) := by
  have hea' : ea.toNat = ((s.setPc (nextPc s.pc)).pc.toNat + (BitVec.ofInt 16 off9.toInt).toNat) % 65536 := by
    rw [setPc_pc]
    exact toNat_eq_nextPc_add_ofInt hea
  have hwrites := exec_ld_writesBack dr hea'
  rwa [memRead_other (s := s.setPc (nextPc s.pc)) hne, setPc_mem, ← step_of_ld_at_pc hlive hpc hword] at hwrites

end

end Machine

end Sys2Proof

open Sys2Proof Sys2Proof.Machine

/-- Settles O19: the write-back of the word read, whose read changed neither a register nor the sequencer's state. -/
theorem loadWritesTheWordRead : Obligations.LoadWritesTheWordRead := by
  unfold Obligations.LoadWritesTheWordRead
  intro dr off9 off ea s hea
  exact ⟨decode_packPCR dr off9, exec_ld_next dr hea⟩

/-- Settles O20: away from KBSR the read has no effect, so the write-back is all that changes. -/
theorem loadAwayFromKbsrChangesDrAndCondOnly : Obligations.LoadAwayFromKbsrChangesDrAndCondOnly := by
  unfold Obligations.LoadAwayFromKbsrChangesDrAndCondOnly
  intro dr off ea s hea hne
  have hwrites := exec_ld_writesBack dr hea
  rwa [memRead_other hne] at hwrites

/-- Settles O21: the read is one poll, and DR and COND follow from the word it stores at KBSR. -/
theorem loadOfKbsrPollsTheKeyboard : Obligations.LoadOfKbsrPollsTheKeyboard := by
  unfold Obligations.LoadOfKbsrPollsTheKeyboard
  intro dr off s hvalid hea
  obtain ⟨hne, -⟩ := hvalid
  obtain ⟨t, hexec, hdr, ⟨hzero, -, hneg⟩, hregs, hcontrol, hmem, hdraws, hpolls⟩ := exec_ld_next dr hea
  rw [memRead_kbsr] at hdr hmem hdraws hpolls
  have hread : ∀ a, Memory.get a t.mem = Memory.get a (pollKeyboard s).mem := fun a => hmem a List.not_mem_nil
  refine ⟨t, hexec, hregs, hcontrol, fun n => ?_, fun hd => ?_, fun b hd => ?_⟩
  · exact (draw_congr hdraws hpolls n).trans (pollKeyboard_oneDrawTaken s n)
  · have hstored := get_kbsr_pollKeyboard_of_noInput hd
    have hdr0 := hdr.trans hstored
    exact ⟨hdr0, hzero (by rw [hdr0]; rfl), (hread _).trans hstored,
      fun a ha => (hread a).trans (pollKeyboard_sameMemory_of_noInput hd a ha)⟩
  · have hstored := get_kbsr_pollKeyboard_of_input hd hne
    have hdr8 := hdr.trans hstored
    refine ⟨hdr8, hneg (by rw [hdr8]; decide), (hread _).trans hstored, ?_,
      fun a ha => (hread a).trans (pollKeyboard_sameMemory s a ha)⟩
    rw [hread, get_kbdr_pollKeyboard_of_input hd, zextByte_toNat]

/-- Settles O37: the step is LD's execution with PC at the next word, from which the signed offset counts. -/
theorem loadAddressIsRelativeToTheNextWord : Obligations.LoadAddressIsRelativeToTheNextWord := by
  unfold Obligations.LoadAddressIsRelativeToTheNextWord
  intro s dr off9 ea hlive hpc hword hea hne
  obtain ⟨t, hstep, hdr, -, -, hmem, -⟩ := step_ld_writesBack hlive hpc hword hea hne
  exact ⟨t, hstep, hdr, hmem⟩

/-- Settles O38: offset -1 leads back to the fetch address, and the word there is positive by its opcode 0010. -/
theorem loadOfOwnWord : Obligations.LoadOfOwnWord := by
  unfold Obligations.LoadOfOwnWord
  intro s dr hlive hpc hword
  have hea : (s.pc.toNat : Int) = (s.pc.toNat + 1 + (0b111111111#9).toInt) % 65536 := by
    have hlt := s.pc.isLt
    have hoff : (0b111111111#9).toInt = -1 := by decide
    omega
  obtain ⟨t, hstep, hdr, ⟨-, hpos, -⟩, -⟩ := step_ld_writesBack hlive hpc hword hea hpc
  rw [hword] at hdr
  refine ⟨t, hstep, hdr, hpos ?_⟩
  have hfield := dr.isLt
  rw [hdr, packPCR_toNat, BitVec.toNat_ofNat]
  omega
end

section
/-! The thirteen halting opcodes (43_unimplemented.md R180, R181; decision D9): the execute phase is the halt and no
more, so a halting word fetched away from KBSR changes PC and the sequencer's state alone, for good. -/

namespace Sys2Proof.Machine

theorem destOf_of_mem_haltingInstrs {i : Instr} (h : i ∈ haltingInstrs) : destOf i = none := by
  have hdest : ∀ j ∈ haltingInstrs, destOf j = none := by decide
  exact hdest i h

/-- An instruction with no DR does nothing but halt. -/
theorem exec_of_destOf_none {i : Instr} (h : destOf i = none) (s : State) :
    exec i s = .next (halt .unimplementedOpcode s) := by
  obtain ⟨-, hexec⟩ | ⟨dr, v, hdest, -⟩ := exec_cases i s
  · exact hexec
  · cases h.symm.trans hdest

/-- The halting words are those whose opcode is not among the three that execute (30_encoding.md R87). -/
theorem decode_mem_haltingInstrs_iff (w : Word) : decode w ∈ haltingInstrs ↔ ¬ IsExecuting w := by
  constructor
  · intro hmem hexec
    cases (destOf_decode_of_isExecuting hexec).symm.trans (destOf_of_mem_haltingInstrs hmem)
  · intro hhalt
    obtain ⟨hmem, -⟩ := decode_of_not_isExecuting hhalt
    exact hmem

theorem setPc_sameRegsBut (v : Word) (s : State) : SameRegsBut [8] s (s.setPc v) := fun _ hi hne =>
  Vector.getElem_set_ne (by decide) hi (Ne.symm (List.ne_of_not_mem_cons hne))

/-- A halting word at PC, away from KBSR: PC moves one further and the machine halts. -/
theorem step_of_haltingWord_at_pc {s : State} (hlive : s.Live) (hpc : s.pc ≠ s.config.kbsrAddr)
    (hhalt : ¬ IsExecuting (Memory.get s.pc s.mem)) :
    step s = .next (halt .unimplementedOpcode (s.setPc (nextPc s.pc))) := by
  rw [step_of_live hlive, afterFetch_of_pc_ne_kbsr hpc, State.fetched, memRead_other hpc]
  exact exec_of_destOf_none (destOf_decode_of_not_isExecuting hhalt) _

/-- A halted machine stays stopped, however many steps are asked of it (40_cycle.md R107). -/
theorem run_succ_of_halted {s : State} (hfault : s.fault = none) (hrun : s.run = .halted) (n : Nat) :
    Host.Core.run Sys2Proof.core (n + 1) s = .fault .sequencerHalted :=
  run_succ_of_fault (step_of_halted hfault hrun) n

end Sys2Proof.Machine

open Sys2Proof.Machine

/-- Settles O22: the halting instructions are those with no DR, and the halt touches the sequencer's state alone. -/
theorem unimplementedOpcodesHalt : Obligations.UnimplementedOpcodesHalt := by
  unfold Obligations.UnimplementedOpcodesHalt
  refine ⟨decode_mem_haltingInstrs_iff, fun i hi s => ?_⟩
  have hexec := exec_of_destOf_none (destOf_of_mem_haltingInstrs hi) s
  exact ⟨_, hexec, rfl, rfl, fun _ _ _ => rfl, fun _ _ => rfl, ⟨rfl, rfl⟩, rfl, rfl⟩

/-- Settles O35: the step is the PC write and the halt, and a halted machine has no step. -/
theorem haltingWordFreezesTheMachine : Obligations.HaltingWordFreezesTheMachine := by
  unfold Obligations.HaltingWordFreezesTheMachine
  intro s hlive hpc hhalt
  have hstep := step_of_haltingWord_at_pc hlive hpc hhalt
  refine ⟨_, hstep, rfl, rfl, ?_, setPc_sameRegsBut _ s, fun _ _ => rfl, ⟨rfl, rfl⟩, step_fault hstep,
    step_config hstep, run_succ_of_halted (step_fault hstep) rfl⟩
  rw [step_pc hstep, nextPc, BitVec.add_sub_cancel]
end

section
/-! Every instruction ends (60_exceptions.md R202, R206): its data read touches no register, and what follows is the
halt or the write-back, of which neither raises a fault. -/

namespace Sys2Proof.Machine

@[simp] theorem afterDataRead_fault (i : Instr) (s : State) : (afterDataRead i s).fault = s.fault := by
  obtain ⟨-, -, -, hfault, -⟩ := afterDataRead_frame i s
  exact hfault

@[simp] theorem afterDataRead_config (i : Instr) (s : State) : (afterDataRead i s).config = s.config := by
  obtain ⟨-, -, -, -, hconfig⟩ := afterDataRead_frame i s
  exact hconfig

@[simp] theorem afterDataRead_pc (i : Instr) (s : State) : (afterDataRead i s).pc = s.pc := by
  obtain ⟨hregs, -⟩ := afterDataRead_frame i s
  simp only [State.pc, hregs]

@[simp] theorem afterDataRead_gpr (i : Instr) (s : State) (r : RegField) : (afterDataRead i s).gpr r = s.gpr r := by
  obtain ⟨hregs, -⟩ := afterDataRead_frame i s
  simp only [State.gpr, hregs]

end Sys2Proof.Machine

open Sys2Proof.Machine

/-- Settles O23: the instruction halts, or writes DR and COND after its data read. -/
theorem everyInstructionCompletesWithoutFault : Obligations.EveryInstructionCompletesWithoutFault := by
  unfold Obligations.EveryInstructionCompletesWithoutFault
  intro i s
  obtain ⟨-, hhalt⟩ | ⟨dr, v, hdest, hwrite⟩ := exec_cases i s
  · exact ⟨_, hhalt, rfl, rfl, rfl, fun _ _ => rfl⟩
  · rw [writeBack_eq] at hwrite
    refine ⟨_, hwrite, by simp, by simp, by simp, fun r hr => ?_⟩
    have hne : dr ≠ r := fun hdr => hr (hdr ▸ hdest)
    simp [setGpr_gpr_other hne]
end

section
/-! Keyboard input between polls (60_exceptions.md R205, decision D12): replacing the answers to come commutes with an
execution, and with a step, that does not read KBSR. -/

namespace Sys2Proof.Machine

/-- The state with the keyboard's answers to come replaced. -/
def State.withKeyboard (draws : List KbDraw) (polls : Nat) (s : State) : State :=
  { s with kbDraws := draws, kbPolls := polls }

section
variable {s s' t : State} (draws : List KbDraw) (polls : Nat)

theorem agreeButKeyboard_withKeyboard : AgreeButKeyboard s (s.withKeyboard draws polls) :=
  ⟨rfl, rfl, rfl, rfl, rfl, rfl⟩

/-- States that agree but for the keyboard are one state with two keyboards. -/
theorem AgreeButKeyboard.eq_withKeyboard (h : AgreeButKeyboard s s') :
    s' = s.withKeyboard s'.kbDraws s'.kbPolls := by
  obtain ⟨hregs, hmem, hrun, hreason, hfault, hconfig⟩ := h
  rw [State.withKeyboard, ← hregs, ← hmem, ← hrun, ← hreason, ← hfault, ← hconfig]

theorem writeBack_withKeyboard {dr : RegField} {v : Word} (h : writeBack dr v s = .next t) :
    writeBack dr v (s.withKeyboard draws polls) = .next (t.withKeyboard draws polls) := by
  rw [writeBack_eq] at h ⊢
  cases h
  rfl

theorem operate_withKeyboard {op : AluOp} {dr sr1 : RegField} {o : Operand2} (h : operate op dr sr1 o s = .next t) :
    operate op dr sr1 o (s.withKeyboard draws polls) = .next (t.withKeyboard draws polls) := by
  have hagree : AgreeButKeyboard s (s.withKeyboard draws polls) := agreeButKeyboard_withKeyboard draws polls
  rw [operate_eq] at h
  rw [operate_eq, hagree.gpr_eq, hagree.operand2Value_eq]
  exact writeBack_withKeyboard draws polls h

/-- An LD of another address than KBSR reads the memory the two states share. -/
theorem execLd_withKeyboard {dr : RegField} {off : Word} (hne : effectiveAddress s.pc off ≠ s.config.kbsrAddr)
    (h : execLd dr off s = .next t) :
    execLd dr off (s.withKeyboard draws polls) = .next (t.withKeyboard draws polls) := by
  have hne' : effectiveAddress (s.withKeyboard draws polls).pc off ≠ (s.withKeyboard draws polls).config.kbsrAddr := hne
  rw [execLd_eq, memRead_other hne, pollIfKbsr_other hne] at h
  rw [execLd_eq, memRead_other hne', pollIfKbsr_other hne']
  exact writeBack_withKeyboard draws polls h

theorem exec_withKeyboard {i : Instr} (hdata : dataAddress i s ≠ some s.config.kbsrAddr) (h : exec i s = .next t) :
    exec i (s.withKeyboard draws polls) = .next (t.withKeyboard draws polls) := by
  cases i with
  | addReg dr sr1 sr2 => exact operate_withKeyboard draws polls h
  | addImm dr sr1 imm => exact operate_withKeyboard draws polls h
  | andReg dr sr1 sr2 => exact operate_withKeyboard draws polls h
  | andImm dr sr1 imm => exact operate_withKeyboard draws polls h
  | ld dr off => exact execLd_withKeyboard draws polls (fun hea => hdata (congrArg some hea)) h
  | _ => cases h; rfl

theorem step_withKeyboard (hreads : ¬ s.ReadsKbsr) (h : step s = .next t) :
    step (s.withKeyboard draws polls) = .next (t.withKeyboard draws polls) := by
  obtain ⟨hpc, hload⟩ := not_or.mp hreads
  have hpc' : (s.withKeyboard draws polls).pc ≠ (s.withKeyboard draws polls).config.kbsrAddr := hpc
  obtain ⟨hlive, -⟩ := step_cases h
  rw [loadsFrom_iff, afterFetch_of_pc_ne_kbsr hpc] at hload
  rw [step_of_live hlive, afterFetch_of_pc_ne_kbsr hpc] at h
  have hfetched : (s.withKeyboard draws polls).fetched = s.fetched := by
    rw [State.fetched, State.fetched, memRead_other hpc, memRead_other hpc']
    rfl
  rw [step_of_live (s := s.withKeyboard draws polls) hlive, afterFetch_of_pc_ne_kbsr hpc', hfetched]
  exact exec_withKeyboard draws polls hload h

end

end Sys2Proof.Machine

open Sys2Proof.Machine

/-- Settles O32: the other state is this one with another keyboard, and so is the state it steps to. -/
theorem inputIsUnseenUntilKbsrIsRead : Obligations.InputIsUnseenUntilKbsrIsRead := by
  unfold Obligations.InputIsUnseenUntilKbsrIsRead
  intro s s' t hagree hreads hstep
  have hstep' := step_withKeyboard s'.kbDraws s'.kbPolls hreads hstep
  rw [← hagree.eq_withKeyboard] at hstep'
  exact ⟨_, hstep', agreeButKeyboard_withKeyboard _ _, rfl, rfl⟩
end

section
/-! The boundary (60_exceptions.md R204, R208; decision D25): which images load, and what the Reporter receives. -/

namespace Sys2Proof.Machine

theorem wordsOfStream_eq_nil_iff (bytes : List Byte) : wordsOfStream bytes = [] ↔ bytes.length < 2 := by
  match bytes with
  | [] => simp [wordsOfStream]
  | [_] => simp [wordsOfStream]
  | _ :: _ :: _ => simp [wordsOfStream]

/-- The Loader succeeds exactly where the stream holds an origin. -/
theorem loadImage_exists_ok_iff (bytes : List Byte) (s : State) :
    (∃ t, loadImage bytes s = .ok t) ↔ 2 ≤ bytes.length := by
  rw [← not_lt, ← wordsOfStream_eq_nil_iff, loadImage]
  cases wordsOfStream bytes with
  | nil => simp
  | cons origin words => simp

/-- A readable image boots exactly where the Loader succeeds. -/
theorem boot_some_exists_ok_iff (c : Config) (kb : List KbDraw) (bytes : List Byte) :
    (∃ s, boot c kb (some bytes) = .ok s) ↔ ∃ t, loadImage bytes (State.created c kb) = .ok t := by
  rw [boot]
  cases loadImage bytes (State.created c kb) with
  | error e => simp [Except.map]
  | ok t => simp [Except.map]

theorem report_of_running {s : State} (h : s.run = .running) : s.report = none := by
  rw [State.report, h]

/-- The report of a halted machine lists the general-purpose registers by number. -/
theorem report_of_halted {s : State} (h : s.run = .halted) :
    s.report = some (List.ofFn fun i : Fin 8 => s.gpr (.ofFin i)) := by
  rw [State.report, h]
  rfl

end Sys2Proof.Machine

open Sys2Proof.Machine

/-- Settles O45: with no image there is no machine, and an image loads when its first word is there. -/
theorem bootFailsExactlyWithoutAnOrigin : Obligations.BootFailsExactlyWithoutAnOrigin := by
  unfold Obligations.BootFailsExactlyWithoutAnOrigin
  intro c kb image
  cases image with
  | none => simp [boot]
  | some bytes => simp only [boot_some_exists_ok_iff, loadImage_exists_ok_iff, Option.some.injEq, exists_eq_left']

/-- Settles O46: while RUNNING nothing is reported, and the halted machine's list holds Ri at place i. -/
theorem reporterReceivesTheGprsOnHalt : Obligations.ReporterReceivesTheGprsOnHalt := by
  unfold Obligations.ReporterReceivesTheGprsOnHalt
  intro s
  refine ⟨report_of_running, fun hhalted => ⟨_, report_of_halted hhalted, List.length_ofFn, fun r => ?_⟩⟩
  rw [List.getElem?_ofFn, dif_pos r.isLt]
  rfl
end

section
/-! The machine at its first fetch (70_reset_and_hazards.md R231 to R233): the values it starts with, and with them the
invariant of the run. -/

namespace Sys2Proof.Machine

theorem storeWords_wf (addr : Nat) (ws : List Word) {s : State} (h : Memory.wf s.mem) :
    Memory.wf (storeWords addr ws s).mem := by
  induction ws generalizing addr s with
  | nil => exact h
  | cons w ws ih =>
    rw [storeWords]
    split
    · exact ih (addr + 1) (memWrite_wf _ w h)
    · exact h

theorem loadImage_wf {bytes : List Byte} {s t : State} (h : loadImage bytes s = .ok t) (hwf : Memory.wf s.mem) :
    Memory.wf t.mem := by
  rw [loadImage] at h
  split at h
  · cases h
  · next origin words _ =>
    cases h
    exact storeWords_wf origin.toNat words hwf

/-- Only stores stand between the empty memory of creation and the first fetch, so the memory is canonical. -/
theorem boot_wf {c : Config} {kb : List KbDraw} {image : Option (List Byte)} {s : State}
    (h : boot c kb image = .ok s) : Memory.wf s.mem := by
  cases image with
  | none => cases h
  | some bytes =>
    rw [boot] at h
    cases hload : loadImage bytes (State.created c kb) with
    | error e => rw [hload] at h; cases h
    | ok t =>
      rw [hload] at h
      cases h
      rw [State.start, setPc_mem]
      exact loadImage_wf hload nil_wf

/-- Setting PC leaves every other register at the zero of creation. -/
theorem created_start_regs (c : Config) (kb : List KbDraw) {i : Nat} (hi : i < 10) (h8 : i ≠ 8) :
    (State.created c kb).start.regs[i] = 0#16 :=
  (setPc_sameRegsBut Config.startPc _ i hi (by simpa using h8)).trans (registersAtCreationAndReset.1 c kb i hi)

end Sys2Proof.Machine

open Sys2Proof Sys2Proof.Machine

/-- Settles O43: the machine is the created one with PC set and memory loaded, and neither touches the rest. -/
theorem bootStartsAt3000WhateverTheOrigin : Obligations.BootStartsAt3000WhateverTheOrigin := by
  unfold Obligations.BootStartsAt3000WhateverTheOrigin
  intro c kb image s hboot
  obtain ⟨m, rfl⟩ := boot_eq_of_ok hboot
  exact ⟨rfl, fun i hi h8 => created_start_regs c kb hi h8, ⟨rfl, rfl⟩, rfl, rfl, rfl⟩

/-- Settles O41: the starting values give every component but the canonical memory, which the Loader keeps. -/
theorem invariantHoldsAfterBoot : Obligations.InvariantHoldsAfterBoot := by
  unfold Obligations.InvariantHoldsAfterBoot
  intro c kb image s hvalid hboot
  obtain ⟨-, hregs, ⟨hrun, hfault⟩, hreason, hconfig, -⟩ := bootStartsAt3000WhateverTheOrigin c kb image s hboot
  have hcond : s.cond = Config.condReset := hregs 9 (by decide) (by decide)
  exact ⟨hconfig ▸ hvalid, boot_wf hboot, .inl hcond, hfault, by simp [hrun, hreason]⟩
end
